-- ==== Sys2Proof/Word.lean ====
section
/-! DEFINITION. The word types of the Melo core: a byte is 8 bits, a word is 16 bits
(spec/00_scope.md R9), and a register index is a 4-bit nibble (R7). -/

namespace Sys2Proof

/-- The width of a register and of the bus (R7). -/
abbrev Byte := BitVec 8

/-- The width of a bus address, of `pc` and of `sp` (R7). -/
abbrev Word := BitVec 16

/-- A register index: an operand nibble, always in 0 to 15 (R7, R84). -/
abbrev RegIdx := BitVec 4

end Sys2Proof
end

