-- ==== Sys2Proof/Config.lean ====
section
/-! DEFINITION. The parameters of the hardware: the fixed ones of spec/00_scope.md R7 and the values the
model gives, at reset only, to the ones R8 leaves open. A state holds the extent and the writability of
its bus, so a statement about every state speaks of every value of those two parameters. -/

namespace Sys2Proof.Config

/-- R7: 65536 byte addresses. -/
def addressSpace : Nat := 65536

/-- R7: an opcode byte is followed by at most 3 operand bytes. -/
def maxOperands : Nat := 3

/-- `BUS_SIZE` of the state after reset. DESIGN CHOICE (log entry 2): R8 and decision D11 leave it open, and
65536 is the value the examples of 95_test_vectors.md use. -/
def resetBusSize : Nat := 65536

/-- `BUS_WRITABLE` of the state after reset: RAM. DESIGN CHOICE (log entry 2), as for `resetBusSize`. -/
def resetBusWritable : Bool := true

end Sys2Proof.Config
end

