-- ==== Sys2Proof/Syntax.lean ====
section
/-! DEFINITION. The instructions of the Melo core, one constructor for each of the 32 selectors of
spec/30_encoding.md R88, in the table's order.

Every constructor carries the two things the opcode byte and the operand bytes say beyond the selector
(R80): the predicated bit `p`, and the operand bytes themselves, whose number is `argc`. The fields
`dest`, `src` and `arg` are NOT part of an instruction: its handler takes them from register A0 as the
operand fetch leaves it, and with `argc = 0` that is what A0 held before the step (R87). -/

namespace Sys2Proof

/-- The 32 instructions of R88. -/
inductive Instr where
  /-- Selector 0x00, R120: no effect beyond the operand fetch. -/
  | nop (p : Bool) (operands : List Byte)
  /-- Selector 0x01, R121: `cmp dest, src`: unsigned comparison of two byte registers. -/
  | cmp (p : Bool) (operands : List Byte)
  /-- Selector 0x02, R122: `any arg`: COND becomes 1 iff some flag of the mask is set. -/
  | any (p : Bool) (operands : List Byte)
  /-- Selector 0x03, R123: `all arg`: COND becomes 1 iff every flag of the mask is set. -/
  | all (p : Bool) (operands : List Byte)
  /-- Selector 0x04, R130: `swap dest, src`: exchange two byte registers. -/
  | swap (p : Bool) (operands : List Byte)
  /-- Selector 0x05, R131: `rev dest, src`: bit reversal. -/
  | rev (p : Bool) (operands : List Byte)
  /-- Selector 0x06, R132: `zeros dest, src`: count of 0 bits. -/
  | zeros (p : Bool) (operands : List Byte)
  /-- Selector 0x07, R133: `ones dest, src`: count of 1 bits. -/
  | ones (p : Bool) (operands : List Byte)
  /-- Selector 0x08, R134: `mov dest, src`: byte copy. -/
  | mov (p : Bool) (operands : List Byte)
  /-- Selector 0x09, R135: `mov16 dest, src`: pair copy. -/
  | mov16 (p : Bool) (operands : List Byte)
  /-- Selector 0x0A, R140: `call dest, src`: push pair dest, then copy pair src to it. -/
  | call (p : Bool) (operands : List Byte)
  /-- Selector 0x0B, R141: `ret dest`: pop a word into pair dest. -/
  | ret (p : Bool) (operands : List Byte)
  /-- Selector 0x0C, R142: `load dest, src`: byte register from the address in pair src. -/
  | load (p : Bool) (operands : List Byte)
  /-- Selector 0x0D, R143: `store dest, src`: byte register to the address in pair dest. -/
  | store (p : Bool) (operands : List Byte)
  /-- Selector 0x0E, R144: `push src`. -/
  | push (p : Bool) (operands : List Byte)
  /-- Selector 0x0F, R145: `pop dest`. -/
  | pop (p : Bool) (operands : List Byte)
  /-- Selector 0x10, R150: `and dest, src`. -/
  | and (p : Bool) (operands : List Byte)
  /-- Selector 0x11, R151: `or dest, src`. -/
  | or (p : Bool) (operands : List Byte)
  /-- Selector 0x12, R152: `xor dest, src`. -/
  | xor (p : Bool) (operands : List Byte)
  /-- Selector 0x13, R153: `not dest, src`. -/
  | not (p : Bool) (operands : List Byte)
  /-- Selector 0x14, R160: `add dest, src`: with carry-in. -/
  | add (p : Bool) (operands : List Byte)
  /-- Selector 0x15, R161: `sub dest, src`: with carry-in as no borrow. -/
  | sub (p : Bool) (operands : List Byte)
  /-- Selector 0x16, R162: `rsub dest, src`: the reverse subtraction. -/
  | rsub (p : Bool) (operands : List Byte)
  /-- Selector 0x17, R163: `neg dest, src`. -/
  | neg (p : Bool) (operands : List Byte)
  /-- Selector 0x18, R170: `shl dest, src`: left shift by a register. -/
  | shl (p : Bool) (operands : List Byte)
  /-- Selector 0x19, R171: `shr dest, src`: logical right shift by a register. -/
  | shr (p : Bool) (operands : List Byte)
  /-- Selector 0x1A, R172: `shlimm dest, #n`: left shift by the low nibble of A0. -/
  | shlimm (p : Bool) (operands : List Byte)
  /-- Selector 0x1B, R173: `shrimm dest, #n`: logical right shift by the low nibble of A0. -/
  | shrimm (p : Bool) (operands : List Byte)
  /-- Selector 0x1C, R174: `inc dest, #n`: add the low nibble of A0. -/
  | inc (p : Bool) (operands : List Byte)
  /-- Selector 0x1D, R175: `dec dest, #n`: subtract the low nibble of A0. -/
  | dec (p : Bool) (operands : List Byte)
  /-- Selector 0x1E, R180: `set arg`: set the flags of the mask. -/
  | set (p : Bool) (operands : List Byte)
  /-- Selector 0x1F, R181: `clear arg`: clear the flags of the mask. -/
  | clear (p : Bool) (operands : List Byte)
  deriving DecidableEq, Repr

/-- The predicated bit of an instruction (R80, opcode bit 5). -/
def Instr.predicated : Instr → Bool
  | .nop p _ => p
  | .cmp p _ => p
  | .any p _ => p
  | .all p _ => p
  | .swap p _ => p
  | .rev p _ => p
  | .zeros p _ => p
  | .ones p _ => p
  | .mov p _ => p
  | .mov16 p _ => p
  | .call p _ => p
  | .ret p _ => p
  | .load p _ => p
  | .store p _ => p
  | .push p _ => p
  | .pop p _ => p
  | .and p _ => p
  | .or p _ => p
  | .xor p _ => p
  | .not p _ => p
  | .add p _ => p
  | .sub p _ => p
  | .rsub p _ => p
  | .neg p _ => p
  | .shl p _ => p
  | .shr p _ => p
  | .shlimm p _ => p
  | .shrimm p _ => p
  | .inc p _ => p
  | .dec p _ => p
  | .set p _ => p
  | .clear p _ => p

/-- The operand bytes of an instruction, the first one first; `argc` is their number (R80, R82). -/
def Instr.operands : Instr → List Byte
  | .nop _ operands => operands
  | .cmp _ operands => operands
  | .any _ operands => operands
  | .all _ operands => operands
  | .swap _ operands => operands
  | .rev _ operands => operands
  | .zeros _ operands => operands
  | .ones _ operands => operands
  | .mov _ operands => operands
  | .mov16 _ operands => operands
  | .call _ operands => operands
  | .ret _ operands => operands
  | .load _ operands => operands
  | .store _ operands => operands
  | .push _ operands => operands
  | .pop _ operands => operands
  | .and _ operands => operands
  | .or _ operands => operands
  | .xor _ operands => operands
  | .not _ operands => operands
  | .add _ operands => operands
  | .sub _ operands => operands
  | .rsub _ operands => operands
  | .neg _ operands => operands
  | .shl _ operands => operands
  | .shr _ operands => operands
  | .shlimm _ operands => operands
  | .shrimm _ operands => operands
  | .inc _ operands => operands
  | .dec _ operands => operands
  | .set _ operands => operands
  | .clear _ operands => operands

end Sys2Proof
end

