-- ==== Sys2Proof/WellFormed.lean ====
section
/-! DEFINITION. Which terms of `Instr` are instructions of the hardware (spec/30_encoding.md R80, R81, R90). -/

namespace Sys2Proof

/-- R80 and R81: an instruction has 0 to 3 operand bytes. That is the only check: every selector stands
with every `argc` and both values of the predicated bit (R87, R89), and an operand byte may have any
value (R90). The machine ignores further bytes of an ill-formed term (log entry 16). -/
def Instr.WellFormed (i : Instr) : Bool :=
  decide (i.operands.length ≤ Config.maxOperands)

end Sys2Proof
end

