-- ==== Sys2Proof/Decode.lean ====
section
/-! DEFINITION. The decoder and the encoder of spec/30_encoding.md R80 to R90. -/

namespace Sys2Proof

/-- Why a list of bytes holds no instruction. The hardware never meets either case: its fetch reads as many
bytes as the opcode asks for, and every opcode byte is an instruction (R89, R90). -/
inductive DecodeError where
  /-- The list is empty: there is no opcode byte. -/
  | noOpcode
  /-- The list ends before the last of the operand bytes that the opcode byte announces. -/
  | missingOperands
  deriving DecidableEq, Repr

/-- `argc`, opcode bits [7:6] (R80): the number of operand bytes. -/
def opcodeArgc (op : Byte) : Nat := (op.extractLsb' 6 2).toNat

/-- `p`, opcode bit 5 (R80): set when the instruction is predicated. -/
def opcodePredicated (op : Byte) : Bool := op.getLsbD 5

/-- `sel`, opcode bits [4:0] (R80): the instruction selector. -/
def opcodeSelector (op : Byte) : BitVec 5 := op.extractLsb' 0 5

/-- The instruction of a selector (R88), with the predicated bit and the operand bytes of an encoding. The
last arm is selector 0x1F: the 5-bit field has no other value left. -/
def instrOfSelector (sel : BitVec 5) (p : Bool) (operands : List Byte) : Instr :=
  match sel.toNat with
  | 0x00 => .nop p operands
  | 0x01 => .cmp p operands
  | 0x02 => .any p operands
  | 0x03 => .all p operands
  | 0x04 => .swap p operands
  | 0x05 => .rev p operands
  | 0x06 => .zeros p operands
  | 0x07 => .ones p operands
  | 0x08 => .mov p operands
  | 0x09 => .mov16 p operands
  | 0x0A => .call p operands
  | 0x0B => .ret p operands
  | 0x0C => .load p operands
  | 0x0D => .store p operands
  | 0x0E => .push p operands
  | 0x0F => .pop p operands
  | 0x10 => .and p operands
  | 0x11 => .or p operands
  | 0x12 => .xor p operands
  | 0x13 => .not p operands
  | 0x14 => .add p operands
  | 0x15 => .sub p operands
  | 0x16 => .rsub p operands
  | 0x17 => .neg p operands
  | 0x18 => .shl p operands
  | 0x19 => .shr p operands
  | 0x1A => .shlimm p operands
  | 0x1B => .shrimm p operands
  | 0x1C => .inc p operands
  | 0x1D => .dec p operands
  | 0x1E => .set p operands
  | _    => .clear p operands

/-- R103: the instruction of an opcode byte and the operand bytes fetched after it. -/
def decodeOpcode (op : Byte) (operands : List Byte) : Instr :=
  instrOfSelector (opcodeSelector op) (opcodePredicated op) operands

/-- The instruction that a list of bytes begins with, and the bytes after it (R80, R81). -/
def decode : List Byte → Except DecodeError (Instr × List Byte)
  | [] => .error .noOpcode
  | op :: rest =>
    if rest.length < opcodeArgc op then .error .missingOperands
    else .ok (decodeOpcode op (rest.take (opcodeArgc op)), rest.drop (opcodeArgc op))

/-- The selector of an instruction (R88). -/
def Instr.selector : Instr → BitVec 5
  | .nop _ _ => 0x00
  | .cmp _ _ => 0x01
  | .any _ _ => 0x02
  | .all _ _ => 0x03
  | .swap _ _ => 0x04
  | .rev _ _ => 0x05
  | .zeros _ _ => 0x06
  | .ones _ _ => 0x07
  | .mov _ _ => 0x08
  | .mov16 _ _ => 0x09
  | .call _ _ => 0x0A
  | .ret _ _ => 0x0B
  | .load _ _ => 0x0C
  | .store _ _ => 0x0D
  | .push _ _ => 0x0E
  | .pop _ _ => 0x0F
  | .and _ _ => 0x10
  | .or _ _ => 0x11
  | .xor _ _ => 0x12
  | .not _ _ => 0x13
  | .add _ _ => 0x14
  | .sub _ _ => 0x15
  | .rsub _ _ => 0x16
  | .neg _ _ => 0x17
  | .shl _ _ => 0x18
  | .shr _ _ => 0x19
  | .shlimm _ _ => 0x1A
  | .shrimm _ _ => 0x1B
  | .inc _ _ => 0x1C
  | .dec _ _ => 0x1D
  | .set _ _ => 0x1E
  | .clear _ _ => 0x1F

/-- R89: `opcode = (argc << 6) | (p << 5) | sel`. -/
def encodeOpcode (argc : Nat) (p : Bool) (sel : BitVec 5) : Byte :=
  (BitVec.ofNat 8 argc <<< 6) ||| ((BitVec.ofBool p).setWidth 8 <<< 5) ||| sel.setWidth 8

/-- The bytes of an instruction in the order they stand in memory: the opcode byte, then the operand bytes
(R80). It is meant for well-formed instructions. -/
def encode (i : Instr) : List Byte :=
  encodeOpcode i.operands.length i.predicated i.selector :: i.operands

/-- The four bytes that hold the low `nbits` bits of `w`, as many as the longest instruction has: the byte
of bits 7 to 0 first, and zero in every bit from `nbits` on. -/
def tableWordBytes (nbits w : Nat) : List Byte :=
  let v := w % 2 ^ nbits
  [BitVec.ofNat 8 v, BitVec.ofNat 8 (v >>> 8), BitVec.ofNat 8 (v >>> 16), BitVec.ofNat 8 (v >>> 24)]

/-- The instruction the decoder reads from the bits `w`, whose first byte is bits 7 to 0. -/
def decodeTableWord (nbits w : Nat) : Option Instr :=
  match decode (tableWordBytes nbits w) with
  | .ok (i, _) => some i
  | .error _ => none

end Sys2Proof
end

