-- ==== Sys2Proof/Machine/State.lean ====
section
/-! DEFINITION. The architectural state (spec/10_state.md R20, R37, R38; spec/20_memory.md R54), the reasons a
step can stop, and the state after creation (spec/70_reset_and_hazards.md R230, R231). -/

namespace Sys2Proof.Machine

/-- The contents of a bus: the listed bytes by address, in ONE canonical form (see `Memory.wf`). An address
that is not listed holds `Memory.unlisted`. -/
abbrev Memory := List Host.Cell

/-- What an address that is not listed reads as. A byte the host did not load is part of the image
(D18), and the examples of 95_test_vectors.md take it as 0. -/
def Memory.unlisted : Byte := 0#8

/-- The canonical form: addresses strictly rising, and no entry equal to what an unlisted address holds. -/
def Memory.wf : Memory → Bool
  | [] => true
  | (a, v) :: m => v != Memory.unlisted && m.all (fun c => decide (a < c.1)) && Memory.wf m

/-- R54: a bus is a triple (N, writable, contents). The host owns it and may replace it between steps
(R69), so its extent and writability stand in the state beside its contents. -/
structure Bus where
  /-- `BUS_SIZE`: the extent N; the store covers the addresses 0 to N-1. -/
  size : Nat
  /-- `BUS_WRITABLE`: true for RAM, false for ROM (R53). -/
  writable : Bool
  /-- The bytes at the addresses 0 to N-1. -/
  mem : Memory
  deriving DecidableEq, Repr

/-- R54: 1 ≤ N ≤ 65536, and the contents are a map, in canonical form, from the addresses 0 to N-1. -/
def Bus.wf (b : Bus) : Bool :=
  decide (1 ≤ b.size) && decide (b.size ≤ Config.addressSpace) &&
    b.mem.all (fun c => decide (c.1 < b.size)) && Memory.wf b.mem

/-- R37 and R38: a step is a function of the pair of the CPU state, which is exactly the 16 bytes of the
register file, and the bus. `pc`, `sp`, the flag byte and A0 to A2 are registers 0:1, 2:3, 4, and 5 to 7
(R21); they have no other home. -/
structure State where
  /-- The register file, x[0] to x[15] (R20). -/
  regs : Vector Byte 16
  /-- The bus the host passes to the step (R38, R54). -/
  bus : Bus
  deriving DecidableEq, Repr

/-- There is no fault: the core raises no exception, every bus access completes, and a step always returns
a state (R111, R200). The type has no constructor, so no step can answer with one. -/
inductive Fault where
  deriving DecidableEq, Repr

/-- Why the model gives an instruction no meaning. -/
inductive Refusal where
  /-- Raised by an arm of `exec` whose instruction has no meaning yet, with its mnemonic. Safe: the model
  stops. No arm raises it: all 32 instructions have their meaning. -/
  | notModelled (mnemonic : String)
  deriving DecidableEq, Repr

/-- `RESET_MODE` (R8, R230): the two ways the core is created. -/
inductive ResetMode where
  /-- Every one of the 128 bits of the register file is 0. -/
  | zeroInitialised
  /-- Every bit is drawn, here given as `draw`; then `pc` and HALT are forced to 0. -/
  | randomised (draw : Vector Byte 16)
  deriving DecidableEq, Repr

/-- The register file of a new core (R230, R231). -/
def ResetMode.regs : ResetMode → Vector Byte 16
  | .zeroInitialised => Vector.replicate 16 0#8
  | .randomised draw => ((draw.set 0 0#8).set 1 0#8).set 4 (draw[4] &&& 0xBF#8)

/-- Creation, the core's only reset (R230). The bus is not reset by the core (R231): it is the one the host
supplies. -/
def State.create (mode : ResetMode) (bus : Bus) : State := ⟨mode.regs, bus⟩

/-- The bus beside the core after reset: the extent and writability of `Config`, and nothing listed.
DESIGN CHOICE (log entries 2 and 3): R8 leaves `BUS_SIZE`, `BUS_WRITABLE` and `BUS_IMAGE` open. -/
def Bus.atReset : Bus := ⟨Config.resetBusSize, Config.resetBusWritable, []⟩

/-- The machine right after reset, in the zero-initialised mode of R230. DESIGN CHOICE (log entry 1): R232 lets
a model fix that mode; `State.create` gives both modes, with any draw and any bus. -/
def State.reset : State := State.create .zeroInitialised Bus.atReset

end Sys2Proof.Machine
end

