-- ==== Sys2Proof/Machine/Ops.lean ====
section
/-! DEFINITION. The named operations over memory, the bus, the registers, the register pairs and the stack
(spec/20_memory.md, spec/10_state.md). There is no operation that takes an exception: the core has none
(R200, R204). -/

namespace Sys2Proof.Machine

/-! ### Memory -/

/-- The byte at an address. -/
def Memory.read : Memory → Nat → Byte
  | [], _ => Memory.unlisted
  | (k, v) :: m, a => if k = a then v else Memory.read m a

/-- The memory without an entry for an address, which then holds `Memory.unlisted`. -/
def Memory.erase (m : Memory) (a : Nat) : Memory := m.filter (fun c => decide (c.1 ≠ a))

/-- The memory with an entry added, at its place in the order of addresses, for an address that has none. -/
def Memory.insert : Memory → Nat → Byte → Memory
  | [], a, v => [(a, v)]
  | (k, w) :: m, a, v => if a < k then (a, v) :: (k, w) :: m else (k, w) :: Memory.insert m a v

/-- The memory with the byte at an address replaced. Writing what an unlisted address holds leaves the
address unlisted, so that equal contents are equal data. -/
def Memory.write (m : Memory) (a : Nat) (v : Byte) : Memory :=
  if v = Memory.unlisted then Memory.erase m a else Memory.insert (Memory.erase m a) a v

/-! ### The bus -/

/-- R54: whether an address lies in the extent of the store. -/
def Bus.inExtent (b : Bus) (a : Word) : Bool := decide (a.toNat < b.size)

/-- R54: whether a write to an address lands; otherwise it is dropped silently (R52, R53). -/
def Bus.writeLands (b : Bus) (a : Word) : Bool := b.writable && b.inExtent a

/-- `read_byte` (R51, R52, R54). A read is pure (R61, D11; log entry 12). -/
def Bus.read (b : Bus) (a : Word) : Byte := if b.inExtent a then Memory.read b.mem a.toNat else 0#8

/-- `write_byte` (R51 to R54). -/
def Bus.write (b : Bus) (a : Word) (v : Byte) : Bus :=
  if b.writeLands a then { b with mem := Memory.write b.mem a.toNat v } else b

/-- The orders of the two bytes of a word (R56). -/
inductive ByteOrder where
  /-- The low byte at the first address. -/
  | little
  /-- The high byte at the first address. -/
  | big
  deriving DecidableEq, Repr

/-- The low byte of a word, `v[7:0]`. -/
def lowByte (v : Word) : Byte := v.extractLsb' 0 8

/-- The high byte of a word, `v[15:8]`. -/
def highByte (v : Word) : Byte := v.extractLsb' 8 8

/-- The word `hi : lo`. -/
def wordOf (hi lo : Byte) : Word := hi ++ lo

/-- `read_word16` (R56): the bytes at `a` and at `(a + 1) mod 65536`. -/
def Bus.readWord (b : Bus) (order : ByteOrder) (a : Word) : Word :=
  match order with
  | .little => wordOf (b.read (a + 1#16)) (b.read a)
  | .big => wordOf (b.read a) (b.read (a + 1#16))

/-- `write_word16` (R56): the byte at `a` is written before the byte at `(a + 1) mod 65536` (D2). -/
def Bus.writeWord (b : Bus) (order : ByteOrder) (a : Word) (v : Word) : Bus :=
  match order with
  | .little => (b.write a (lowByte v)).write (a + 1#16) (highByte v)
  | .big => (b.write a (highByte v)).write (a + 1#16) (lowByte v)

/-- `STACK_WORD_ORDER`: the order in which `call` and `ret` move a word (R57, D1; log entry 4). -/
def stackWordOrder : ByteOrder := .little

/-! ### Registers -/

/-- `x[i]` (R11, R23). -/
def State.reg (s : State) (i : RegIdx) : Byte := s.regs[i.toNat]'i.isLt

/-- `x[i] <- v` (R11, R23). No register is hardwired (R22). -/
def State.setReg (s : State) (i : RegIdx) (v : Byte) : State :=
  { s with regs := s.regs.set i.toNat v i.isLt }

/-- The state with another bus. -/
def State.setBus (s : State) (b : Bus) : State := { s with bus := b }

/-- The even index at or below an index, `i & 0xE` (R11, R24). -/
def pairIndex (i : RegIdx) : RegIdx := i &&& 0xE#4

/-- `pair(i)`: the even register is the low byte (R11, R24). -/
def State.pair (s : State) (i : RegIdx) : Word :=
  wordOf (s.reg (pairIndex i + 1#4)) (s.reg (pairIndex i))

/-- `pair(i) <- v` (R11, R24). -/
def State.setPair (s : State) (i : RegIdx) (v : Word) : State :=
  (s.setReg (pairIndex i) (lowByte v)).setReg (pairIndex i + 1#4) (highByte v)

/-- The pair of the program counter (R21, R26). -/
abbrev pcIndex : RegIdx := 0#4

/-- The pair of the stack pointer (R21, R27). -/
abbrev spIndex : RegIdx := 2#4

/-- The flag byte (R21, R28). -/
abbrev flagIndex : RegIdx := 4#4

/-- A0, the first operand scratch register (R21, R35). -/
abbrev a0Index : RegIdx := 5#4

/-- A1, the second operand scratch register (R21, R35). -/
abbrev a1Index : RegIdx := 6#4

/-- A2, the third operand scratch register (R21, R35). -/
abbrev a2Index : RegIdx := 7#4

/-- The program counter (R26). -/
def State.pc (s : State) : Word := s.pair pcIndex

/-- The stack pointer (R27). -/
def State.sp (s : State) : Word := s.pair spIndex

/-- `pair(i) <- pair(i) + n`, modulo 65536 (R25). -/
def State.addPair (s : State) (i : RegIdx) (n : Word) : State := s.setPair i (s.pair i + n)

/-- `pair(i) <- pair(i) - n`, modulo 65536 (R25). -/
def State.subPair (s : State) (i : RegIdx) (n : Word) : State := s.setPair i (s.pair i - n)

/-! ### Bus accesses of the core (R55) -/

/-- `MemRead(a, 1)` (R12). -/
def State.readByte (s : State) (a : Word) : Byte := s.bus.read a

/-- `MemWrite(a, 1, v)` (R12). -/
def State.writeByte (s : State) (a : Word) (v : Byte) : State := s.setBus (s.bus.write a v)

/-- `MemRead(a, 2)` of the core (R12, R57). -/
def State.readWord (s : State) (a : Word) : Word := s.bus.readWord stackWordOrder a

/-- `MemWrite(a, 2, v)` of the core (R12, R57). -/
def State.writeWord (s : State) (a : Word) (v : Word) : State :=
  s.setBus (s.bus.writeWord stackWordOrder a v)

/-! ### The stack (R27): it grows upward, and `sp` addresses the first free byte -/

/-- Write a byte at `[sp]`, then `sp <- sp + 1` (R144). -/
def State.pushByte (s : State) (v : Byte) : State := (s.writeByte s.sp v).addPair spIndex 1#16

/-- Write a word at `[sp]`, then `sp <- sp + 2` (R140). -/
def State.pushWord (s : State) (v : Word) : State := (s.writeWord s.sp v).addPair spIndex 2#16

/-- `sp <- sp - 1`; the popped byte is then the one at `[sp]` (R145). -/
def State.dropByte (s : State) : State := s.subPair spIndex 1#16

/-- `sp <- sp - 2`; the popped word is then the one at `[sp]` (R141). -/
def State.dropWord (s : State) : State := s.subPair spIndex 2#16

end Sys2Proof.Machine
end

