-- ==== Sys2Proof/Machine/Operands.lean ====
section
/-! DEFINITION. The operand forms of spec/30_encoding.md R83 and R84: what a handler decodes from A0. A nibble
is always a legal register index, and the immediates of R86 are reads of A1 and A2 as registers 6 and 7. -/

namespace Sys2Proof.Machine

/-- `dest = A0[7:4]` (R83). -/
def State.dest (s : State) : RegIdx := (s.reg a0Index).extractLsb' 4 4

/-- `src = A0[3:0]` (R83). -/
def State.src (s : State) : RegIdx := (s.reg a0Index).extractLsb' 0 4

/-- `arg`: the whole of A0, a flag mask (R83). -/
def State.arg (s : State) : Byte := s.reg a0Index

/-- The unsigned, unscaled 4-bit immediate `A0[3:0]`, 0 to 15 (R84). -/
def State.imm4 (s : State) : Nat := s.src.toNat

/-- The byte register operand `x[dest]` (R84). -/
def State.destReg (s : State) : Byte := s.reg s.dest

/-- The byte register operand `x[src]` (R84). -/
def State.srcReg (s : State) : Byte := s.reg s.src

/-- The pair operand `pair(dest)`, its index masked to even (R84). -/
def State.destPair (s : State) : Word := s.pair s.dest

/-- The pair operand `pair(src)`, its index masked to even (R84). -/
def State.srcPair (s : State) : Word := s.pair s.src

end Sys2Proof.Machine
end

