-- ==== Sys2Proof/Machine/Flags.lean ====
section
/-! DEFINITION. The flag byte, register 4, and the flag updaters (spec/10_state.md R28 to R31). -/

namespace Sys2Proof.Machine

/-- The eight flags of R28. -/
inductive Flag where
  /-- Bit 7: result of the last predicate evaluation. -/
  | cond
  /-- Bit 6: execution stopped. -/
  | halt
  /-- Bit 5: greater than, last comparison result. -/
  | gt
  /-- Bit 4: equal, last comparison result. -/
  | eq
  /-- Bit 3: less than, last comparison result. -/
  | lt
  /-- Bit 2: negative, last arithmetic or logic result. -/
  | neg
  /-- Bit 1: zero, last arithmetic or logic result. -/
  | zero
  /-- Bit 0: carry, last arithmetic or logic result. -/
  | carry
  deriving DecidableEq, Repr

/-- The bit of the flag byte that holds a flag (R28). -/
def Flag.bit : Flag → Nat
  | .cond => 7
  | .halt => 6
  | .gt => 5
  | .eq => 4
  | .lt => 3
  | .neg => 2
  | .zero => 1
  | .carry => 0

/-- The mask of a flag, `1 << bit` (R28). -/
def Flag.mask (f : Flag) : Byte := 1#8 <<< f.bit

/-- The flag byte (R28). -/
def State.flags (s : State) : Byte := s.reg flagIndex

/-- Whether a flag is 1: its bit of `x[4]` (R11, R28). -/
def State.flag (s : State) (f : Flag) : Bool := s.flags.getLsbD f.bit

/-- Flag-set with a mask, `flags |= mask` (R29). -/
def State.setMask (s : State) (mask : Byte) : State := s.setReg flagIndex (s.flags ||| mask)

/-- Flag-clear with a mask, `flags &= ~mask` (R29). -/
def State.clearMask (s : State) (mask : Byte) : State := s.setReg flagIndex (s.flags &&& ~~~mask)

/-- `F.NAME <- b` (R29; assignment is D9, log entry 5): flag-set of the flag's mask when `b` holds, flag-clear of it
otherwise. -/
def State.setFlag (s : State) (f : Flag) (b : Bool) : State :=
  if b then s.setMask f.mask else s.clearMask f.mask

/-- `LogicFlags(v)` (R31): NEG and ZERO from an 8-bit value. -/
def State.logicFlags (s : State) (v : Byte) : State :=
  (s.setFlag .neg (v.getLsbD 7)).setFlag .zero (v == 0#8)

/-- `ArithFlags(t)` (R30): NEG and ZERO from the low 8 bits of a 9-bit intermediate, CARRY from its bit 8. -/
def State.arithFlags (s : State) (t : Nat) : State :=
  let v := BitVec.ofNat 8 t
  ((s.setFlag .neg (v.getLsbD 7)).setFlag .zero (v == 0#8)).setFlag .carry (decide (t > 255))

/-- GT, EQ and LT from an unsigned comparison (R121). -/
def State.compareFlags (s : State) (a b : Byte) : State :=
  ((s.setFlag .gt (decide (b < a))).setFlag .eq (a == b)).setFlag .lt (decide (a < b))

/-- The CARRY bit as the carry-in `C` (spec/45_arith.md), 0 or 1. -/
def State.carryIn (s : State) : Nat := (s.flag .carry).toNat

/-- A result to the destination register, then the logic-flags update in the flag byte as it then stands
(spec/44_logic.md, R163; D4 where the destination is the flag byte). -/
def State.writeLogic (s : State) (v : Byte) : State := (s.setReg s.dest v).logicFlags v

/-- The low 8 bits of a 9-bit intermediate to the destination register, then the arithmetic-flags update
(R160 to R162, R174, R175; D4 where the destination is the flag byte). -/
def State.writeArith (s : State) (t : Nat) : State :=
  (s.setReg s.dest (BitVec.ofNat 8 t)).arithFlags t

/-- R34 and R100: the running or halted state of the cycle is the HALT bit and nothing else (R34). -/
def State.halted (s : State) : Bool := s.flag .halt

end Sys2Proof.Machine
end

