-- ==== Sys2Proof/Machine/Fetch.lean ====
section
/-! DEFINITION. The parts of the step that every instruction shares (spec/40_step_cycle.md R100 to R107): the
instruction the bus holds at `pc`, the effect of fetching it, the predicate test, and the dispatch to a
handler. -/

namespace Sys2Proof.Machine

/-- The `n` bytes of the bus from an address on, wrapping past 0xFFFF (R59, R102). -/
def State.bytesAt (s : State) (a : Word) : Nat → List Byte
  | 0 => []
  | n + 1 => s.readByte a :: s.bytesAt (a + 1#16) n

/-- The instruction at `pc`: the opcode byte, and the operand bytes it asks for, read in address order
(R102 to R104). The fetch writes no bus byte, so reading them all first is reading each in its turn
(log entry 15). -/
def State.fetchInstr (s : State) : Instr :=
  let op := s.readByte s.pc
  decodeOpcode op (s.bytesAt (s.pc + 1#16) (opcodeArgc op))

/-- `pc <- (pc + 1) mod 65536` (R102). -/
def State.advancePc (s : State) : State := s.addPair pcIndex 1#16

/-- R104: the operand bytes into the scratch registers, in order, with one pc increment for each. -/
def State.loadScratch (s : State) : List RegIdx → List Byte → State
  | r :: rs, b :: bs => ((s.setReg r b).advancePc).loadScratch rs bs
  | _, _ => s

/-- The state in which the predicate is tested and the handler runs: `pc` past the instruction and the
operand bytes in A0 to A(argc-1) (R102, R104). The other scratch registers keep their values (R35). -/
def State.fetched (s : State) (operands : List Byte) : State :=
  s.advancePc.loadScratch [a0Index, a1Index, a2Index] operands

/-- The predicate test (R105): the handler runs if `p` is 0 or COND is 1. -/
def State.runs (s : State) (p : Bool) : Bool := !p || s.flag .cond

/-- What every instruction does (R100, R105 to R107): its fetch takes effect; then, if the predicate test
passes, its handler does. -/
def State.execute (s : State) (p : Bool) (operands : List Byte) (handler : State → State) :
    Host.Outcome State Fault Refusal :=
  let u := s.fetched operands
  .next (if u.runs p then handler u else u)

end Sys2Proof.Machine
end

