-- ==== Sys2Proof/Machine/Arith.lean ====
section
/-! DEFINITION. Arithmetic instructions (spec/45_arith.md R160 to R164). The complement is 8 bits wide (D8; log entry 10). -/

namespace Sys2Proof.Machine

/-- The handler of `add` (R160): add with carry-in. -/
def addHandler (u : State) : State :=
  u.writeArith (u.destReg.toNat + u.srcReg.toNat + u.carryIn)

/-- `add` (R160): fetch, predicate test, handler. -/
def execAdd (p : Bool) (operands : List Byte) (s : State) : Host.Outcome State Fault Refusal :=
  s.execute p operands addHandler

/-- The handler of `sub` (R161): subtract, CARRY being no borrow. -/
def subHandler (u : State) : State :=
  u.writeArith (u.destReg.toNat + (~~~u.srcReg).toNat + u.carryIn)

/-- `sub` (R161): fetch, predicate test, handler. -/
def execSub (p : Bool) (operands : List Byte) (s : State) : Host.Outcome State Fault Refusal :=
  s.execute p operands subHandler

/-- The handler of `rsub` (R162): the reverse subtraction, with the same flag update (D6; log entry 9). -/
def rsubHandler (u : State) : State :=
  u.writeArith ((~~~u.destReg).toNat + u.srcReg.toNat + u.carryIn)

/-- `rsub` (R162): fetch, predicate test, handler. -/
def execRsub (p : Bool) (operands : List Byte) (s : State) : Host.Outcome State Fault Refusal :=
  s.execute p operands rsubHandler

/-- The handler of `neg` (R163): `0 - x[src]` modulo 256; the logic-flags update only. -/
def negHandler (u : State) : State :=
  u.writeLogic (0#8 - u.srcReg)

/-- `neg` (R163): fetch, predicate test, handler. -/
def execNeg (p : Bool) (operands : List Byte) (s : State) : Host.Outcome State Fault Refusal :=
  s.execute p operands negHandler

end Sys2Proof.Machine
end

