-- ==== Sys2Proof/Machine/BitMove.lean ====
section
/-! DEFINITION. Exchange, bit-count and move instructions (spec/42_bit_move.md R130 to R135). None runs a flag updater (D5;
log entry 8); a destination register 4 is the flag byte all the same. -/

namespace Sys2Proof.Machine

/-- The sum over i = 0..7 of `b[i] << (7 - i)` (R131; the mapping is the spec's GK1, log entry 11). -/
def reverseBits (b : Byte) : Byte :=
  BitVec.ofNat 8 ((List.range 8).foldl (fun acc i => acc + (b.getLsbD i).toNat <<< (7 - i)) 0)

/-- The number of bits of a byte equal to 1 (R132, R133). -/
def popcount (b : Byte) : Nat :=
  (List.range 8).foldl (fun acc i => acc + (b.getLsbD i).toNat) 0

/-- The handler of `swap` (R130): both registers are read before either is written. -/
def swapHandler (u : State) : State :=
  (u.setReg u.dest u.srcReg).setReg u.src u.destReg

/-- `swap` (R130): fetch, predicate test, handler. -/
def execSwap (p : Bool) (operands : List Byte) (s : State) : Host.Outcome State Fault Refusal :=
  s.execute p operands swapHandler

/-- The handler of `rev` (R131): bit reversal of the source. -/
def revHandler (u : State) : State :=
  u.setReg u.dest (reverseBits u.srcReg)

/-- `rev` (R131): fetch, predicate test, handler. -/
def execRev (p : Bool) (operands : List Byte) (s : State) : Host.Outcome State Fault Refusal :=
  s.execute p operands revHandler

/-- The handler of `zeros` (R132): the count of 0 bits. -/
def zerosHandler (u : State) : State :=
  u.setReg u.dest (BitVec.ofNat 8 (8 - popcount u.srcReg))

/-- `zeros` (R132): fetch, predicate test, handler. -/
def execZeros (p : Bool) (operands : List Byte) (s : State) : Host.Outcome State Fault Refusal :=
  s.execute p operands zerosHandler

/-- The handler of `ones` (R133): the count of 1 bits. -/
def onesHandler (u : State) : State :=
  u.setReg u.dest (BitVec.ofNat 8 (popcount u.srcReg))

/-- `ones` (R133): fetch, predicate test, handler. -/
def execOnes (p : Bool) (operands : List Byte) (s : State) : Host.Outcome State Fault Refusal :=
  s.execute p operands onesHandler

/-- The handler of `mov` (R134): byte copy. -/
def movHandler (u : State) : State :=
  u.setReg u.dest u.srcReg

/-- `mov` (R134): fetch, predicate test, handler. -/
def execMov (p : Bool) (operands : List Byte) (s : State) : Host.Outcome State Fault Refusal :=
  s.execute p operands movHandler

/-- The handler of `mov16` (R135): pair copy. -/
def mov16Handler (u : State) : State :=
  u.setPair u.dest u.srcPair

/-- `mov16` (R135): fetch, predicate test, handler. -/
def execMov16 (p : Bool) (operands : List Byte) (s : State) : Host.Outcome State Fault Refusal :=
  s.execute p operands mov16Handler

end Sys2Proof.Machine
end

