-- ==== Sys2Proof/Machine/Compare.lean ====
section
/-! DEFINITION. No-op, compare and predicate instructions (spec/41_compare_predicate.md R120 to R123). A handler runs on
the state the fetch leaves. -/

namespace Sys2Proof.Machine

/-- The handler of `nop` (R120): no effect. -/
def nopHandler (u : State) : State :=
  u

/-- `nop` (R120): fetch, predicate test, handler. -/
def execNop (p : Bool) (operands : List Byte) (s : State) : Host.Outcome State Fault Refusal :=
  s.execute p operands nopHandler

/-- The handler of `cmp` (R121): GT, EQ and LT from the unsigned comparison of the operands as they were before
any write (D3), NEG and ZERO from the right operand. -/
def cmpHandler (u : State) : State :=
  (u.compareFlags u.destReg u.srcReg).logicFlags u.srcReg

/-- `cmp` (R121): fetch, predicate test, handler. -/
def execCmp (p : Bool) (operands : List Byte) (s : State) : Host.Outcome State Fault Refusal :=
  s.execute p operands cmpHandler

/-- The handler of `any` (R122): COND becomes `(flags & arg) != 0`. -/
def anyHandler (u : State) : State :=
  u.setFlag .cond (u.flags &&& u.arg != 0#8)

/-- `any` (R122): fetch, predicate test, handler. -/
def execAny (p : Bool) (operands : List Byte) (s : State) : Host.Outcome State Fault Refusal :=
  s.execute p operands anyHandler

/-- The handler of `all` (R123): COND becomes `(flags & arg) = arg`. -/
def allHandler (u : State) : State :=
  u.setFlag .cond (u.flags &&& u.arg == u.arg)

/-- `all` (R123): fetch, predicate test, handler. -/
def execAll (p : Bool) (operands : List Byte) (s : State) : Host.Outcome State Fault Refusal :=
  s.execute p operands allHandler

end Sys2Proof.Machine
end

