-- ==== Sys2Proof/Machine/FlagControl.lean ====
section
/-! DEFINITION. Flag set and clear instructions (spec/47_flag_control.md R180, R181). -/

namespace Sys2Proof.Machine

/-- The handler of `set` (R180): `flags |= arg`. -/
def setHandler (u : State) : State :=
  u.setMask u.arg

/-- `set` (R180): fetch, predicate test, handler. -/
def execSet (p : Bool) (operands : List Byte) (s : State) : Host.Outcome State Fault Refusal :=
  s.execute p operands setHandler

/-- The handler of `clear` (R181): `flags &= ~arg`. -/
def clearHandler (u : State) : State :=
  u.clearMask u.arg

/-- `clear` (R181): fetch, predicate test, handler. -/
def execClear (p : Bool) (operands : List Byte) (s : State) : Host.Outcome State Fault Refusal :=
  s.execute p operands clearHandler

end Sys2Proof.Machine
end

