-- ==== Sys2Proof/Machine/Logic.lean ====
section
/-! DEFINITION. Logic instructions (spec/44_logic.md R150 to R153). The result is written to the destination first, then the
logic-flags update rewrites NEG and ZERO (D4 where the destination is the flag byte; log entry 7). -/

namespace Sys2Proof.Machine

/-- The handler of `and` (R150): bitwise and. -/
def andHandler (u : State) : State :=
  u.writeLogic (u.destReg &&& u.srcReg)

/-- `and` (R150): fetch, predicate test, handler. -/
def execAnd (p : Bool) (operands : List Byte) (s : State) : Host.Outcome State Fault Refusal :=
  s.execute p operands andHandler

/-- The handler of `or` (R151): bitwise or. -/
def orHandler (u : State) : State :=
  u.writeLogic (u.destReg ||| u.srcReg)

/-- `or` (R151): fetch, predicate test, handler. -/
def execOr (p : Bool) (operands : List Byte) (s : State) : Host.Outcome State Fault Refusal :=
  s.execute p operands orHandler

/-- The handler of `xor` (R152): bitwise exclusive or. -/
def xorHandler (u : State) : State :=
  u.writeLogic (u.destReg ^^^ u.srcReg)

/-- `xor` (R152): fetch, predicate test, handler. -/
def execXor (p : Bool) (operands : List Byte) (s : State) : Host.Outcome State Fault Refusal :=
  s.execute p operands xorHandler

/-- The handler of `not` (R153): the 8-bit complement of the source. -/
def notHandler (u : State) : State :=
  u.writeLogic (~~~u.srcReg)

/-- `not` (R153): fetch, predicate test, handler. -/
def execNot (p : Bool) (operands : List Byte) (s : State) : Host.Outcome State Fault Refusal :=
  s.execute p operands notHandler

end Sys2Proof.Machine
end

