-- ==== Sys2Proof/Machine/ShiftImm.lean ====
section
/-! DEFINITION. Shift and immediate-step instructions (spec/46_shift_imm.md R170 to R175). No shift writes a flag. -/

namespace Sys2Proof.Machine

/-- `if n >= 8 then 0 else (x << n) mod 256` (R170, R172). -/
def shiftLeft (x : Byte) (n : Nat) : Byte := if n ≥ 8 then 0#8 else x <<< n

/-- `if n >= 8 then 0 else x >> n`, 0 shifted in (R171, R173). -/
def shiftRight (x : Byte) (n : Nat) : Byte := if n ≥ 8 then 0#8 else x >>> n

/-- The handler of `shl` (R170): left shift by the whole source byte. -/
def shlHandler (u : State) : State :=
  u.setReg u.dest (shiftLeft u.destReg u.srcReg.toNat)

/-- `shl` (R170): fetch, predicate test, handler. -/
def execShl (p : Bool) (operands : List Byte) (s : State) : Host.Outcome State Fault Refusal :=
  s.execute p operands shlHandler

/-- The handler of `shr` (R171): logical right shift by the whole source byte. -/
def shrHandler (u : State) : State :=
  u.setReg u.dest (shiftRight u.destReg u.srcReg.toNat)

/-- `shr` (R171): fetch, predicate test, handler. -/
def execShr (p : Bool) (operands : List Byte) (s : State) : Host.Outcome State Fault Refusal :=
  s.execute p operands shrHandler

/-- The handler of `shlimm` (R172): left shift by the 4-bit immediate (D7 for 8 to 15; log entry 10). -/
def shlimmHandler (u : State) : State :=
  u.setReg u.dest (shiftLeft u.destReg u.imm4)

/-- `shlimm` (R172): fetch, predicate test, handler. -/
def execShlimm (p : Bool) (operands : List Byte) (s : State) : Host.Outcome State Fault Refusal :=
  s.execute p operands shlimmHandler

/-- The handler of `shrimm` (R173): logical right shift by the 4-bit immediate (D7 for 8 to 15; log entry 10). -/
def shrimmHandler (u : State) : State :=
  u.setReg u.dest (shiftRight u.destReg u.imm4)

/-- `shrimm` (R173): fetch, predicate test, handler. -/
def execShrimm (p : Bool) (operands : List Byte) (s : State) : Host.Outcome State Fault Refusal :=
  s.execute p operands shrimmHandler

/-- The handler of `inc` (R174): add the 4-bit immediate; there is no carry-in. -/
def incHandler (u : State) : State :=
  u.writeArith (u.destReg.toNat + u.imm4)

/-- `inc` (R174): fetch, predicate test, handler. -/
def execInc (p : Bool) (operands : List Byte) (s : State) : Host.Outcome State Fault Refusal :=
  s.execute p operands incHandler

/-- The handler of `dec` (R175): subtract the 4-bit immediate, as `x[d] + ~n + 1` with an 8-bit complement (D8). -/
def decHandler (u : State) : State :=
  u.writeArith (u.destReg.toNat + (~~~(BitVec.ofNat 8 u.imm4)).toNat + 1)

/-- `dec` (R175): fetch, predicate test, handler. -/
def execDec (p : Bool) (operands : List Byte) (s : State) : Host.Outcome State Fault Refusal :=
  s.execute p operands decHandler

end Sys2Proof.Machine
end

