-- ==== Sys2Proof/Machine/StackMemory.lean ====
section
/-! DEFINITION. Call, return, load, store, push and pop (spec/43_stack_memory.md R140 to R145). Statements take effect in
the order the rule lists them, and a later read sees an earlier write (D3; log entry 6). -/

namespace Sys2Proof.Machine

/-- The handler of `call` (R140): push pair dest, then copy pair src, read after `sp` has moved, to it. -/
def callHandler (u : State) : State :=
  let t := u.pushWord u.destPair
  t.setPair u.dest (t.pair u.src)

/-- `call` (R140): fetch, predicate test, handler. -/
def execCall (p : Bool) (operands : List Byte) (s : State) : Host.Outcome State Fault Refusal :=
  s.execute p operands callHandler

/-- The handler of `ret` (R141): `sp` moves down by 2, then pair dest takes the word at it. -/
def retHandler (u : State) : State :=
  let t := u.dropWord
  t.setPair u.dest (t.readWord t.sp)

/-- `ret` (R141): fetch, predicate test, handler. -/
def execRet (p : Bool) (operands : List Byte) (s : State) : Host.Outcome State Fault Refusal :=
  s.execute p operands retHandler

/-- The handler of `load` (R142): the byte at the address in pair src. -/
def loadHandler (u : State) : State :=
  u.setReg u.dest (u.readByte u.srcPair)

/-- `load` (R142): fetch, predicate test, handler. -/
def execLoad (p : Bool) (operands : List Byte) (s : State) : Host.Outcome State Fault Refusal :=
  s.execute p operands loadHandler

/-- The handler of `store` (R143): the source byte to the address in pair dest. -/
def storeHandler (u : State) : State :=
  u.writeByte u.destPair u.srcReg

/-- `store` (R143): fetch, predicate test, handler. -/
def execStore (p : Bool) (operands : List Byte) (s : State) : Host.Outcome State Fault Refusal :=
  s.execute p operands storeHandler

/-- The handler of `push` (R144): the source byte at `[sp]`, then `sp` moves up by 1. -/
def pushHandler (u : State) : State :=
  u.pushByte u.srcReg

/-- `push` (R144): fetch, predicate test, handler. -/
def execPush (p : Bool) (operands : List Byte) (s : State) : Host.Outcome State Fault Refusal :=
  s.execute p operands pushHandler

/-- The handler of `pop` (R145): `sp` moves down by 1, then dest takes the byte at it. -/
def popHandler (u : State) : State :=
  let t := u.dropByte
  t.setReg u.dest (t.readByte t.sp)

/-- `pop` (R145): fetch, predicate test, handler. -/
def execPop (p : Bool) (operands : List Byte) (s : State) : Host.Outcome State Fault Refusal :=
  s.execute p operands popHandler

end Sys2Proof.Machine
end

