-- ==== Sys2Proof/Machine/Dispatch.lean ====
section
/-! DEFINITION. The dispatch of spec/40_step_cycle.md R106: one arm per constructor of Instr. -/

namespace Sys2Proof.Machine

def exec (i : Instr) (s : State) : Host.Outcome State Fault Refusal :=
  match i with
  | .nop p operands => Sys2Proof.Machine.execNop p operands s
  | .cmp p operands => Sys2Proof.Machine.execCmp p operands s
  | .any p operands => Sys2Proof.Machine.execAny p operands s
  | .all p operands => Sys2Proof.Machine.execAll p operands s
  | .swap p operands => Sys2Proof.Machine.execSwap p operands s
  | .rev p operands => Sys2Proof.Machine.execRev p operands s
  | .zeros p operands => Sys2Proof.Machine.execZeros p operands s
  | .ones p operands => Sys2Proof.Machine.execOnes p operands s
  | .mov p operands => Sys2Proof.Machine.execMov p operands s
  | .mov16 p operands => Sys2Proof.Machine.execMov16 p operands s
  | .call p operands => Sys2Proof.Machine.execCall p operands s
  | .ret p operands => Sys2Proof.Machine.execRet p operands s
  | .load p operands => Sys2Proof.Machine.execLoad p operands s
  | .store p operands => Sys2Proof.Machine.execStore p operands s
  | .push p operands => Sys2Proof.Machine.execPush p operands s
  | .pop p operands => Sys2Proof.Machine.execPop p operands s
  | .and p operands => Sys2Proof.Machine.execAnd p operands s
  | .or p operands => Sys2Proof.Machine.execOr p operands s
  | .xor p operands => Sys2Proof.Machine.execXor p operands s
  | .not p operands => Sys2Proof.Machine.execNot p operands s
  | .add p operands => Sys2Proof.Machine.execAdd p operands s
  | .sub p operands => Sys2Proof.Machine.execSub p operands s
  | .rsub p operands => Sys2Proof.Machine.execRsub p operands s
  | .neg p operands => Sys2Proof.Machine.execNeg p operands s
  | .shl p operands => Sys2Proof.Machine.execShl p operands s
  | .shr p operands => Sys2Proof.Machine.execShr p operands s
  | .shlimm p operands => Sys2Proof.Machine.execShlimm p operands s
  | .shrimm p operands => Sys2Proof.Machine.execShrimm p operands s
  | .inc p operands => Sys2Proof.Machine.execInc p operands s
  | .dec p operands => Sys2Proof.Machine.execDec p operands s
  | .set p operands => Sys2Proof.Machine.execSet p operands s
  | .clear p operands => Sys2Proof.Machine.execClear p operands s

end Sys2Proof.Machine
end

