-- ==== Sys2Proof/Machine/HostActions.lean ====
section
/-! DEFINITION. The host interface of spec/60_exceptions.md R214 to R216 and spec/10_state.md R39: what the host may
do to a core and its bus, always between two steps, and what it may ask. -/

namespace Sys2Proof.Machine

/-- The register a host index names: any index is legal, masked into 0 to 15 (R23). -/
def maskIndex (i : Nat) : RegIdx := BitVec.ofNat 4 i

/-- Force-halt (R215): `F.HALT <- 1`. -/
def State.forceHalt (s : State) : State := s.setFlag .halt true

/-- Force-clear-halt (R215): `F.HALT <- 0`. -/
def State.forceClearHalt (s : State) : State := s.setFlag .halt false

/-- The host's own placing of a byte in the store (R69, R215): it is not an access of the core, so it lands on
ROM too, and the store is extended if the address lies outside it. -/
def Bus.load (b : Bus) (a : Word) (v : Byte) : Bus :=
  { b with size := max b.size (a.toNat + 1), mem := Memory.write b.mem a.toNat v }

/-- Bytes placed at consecutive addresses, wrapping past 0xFFFF (D18: "already placed in memory"). -/
def State.loadBytes (s : State) (a : Word) : List Byte → State
  | [] => s
  | v :: vs => (s.setBus (s.bus.load a v)).loadBytes (a + 1#16) vs

/-- The host's operations of R215 that change something. -/
inductive HostAction where
  /-- Set register `i & 0xF`. -/
  | setRegister (i : Nat) (v : Byte)
  /-- Set a register pair; an odd index is masked down. -/
  | setRegisterPair (i : Nat) (v : Word)
  /-- Set the flag byte. -/
  | setFlagByte (v : Byte)
  /-- Set HALT. -/
  | forceHalt
  /-- Clear HALT, so that execution resumes at the current `pc` (R211). -/
  | forceClearHalt
  /-- Replace the bus, or change it in any way (R69). -/
  | replaceBus (b : Bus)
  /-- Create a new core on the same bus, the only reset there is (R230). -/
  | create (mode : ResetMode)
  deriving DecidableEq, Repr

/-- The effect of a host action, taken between two steps (R216; log entry 14). -/
def State.hostAct (s : State) : HostAction → State
  | .setRegister i v => s.setReg (maskIndex i) v
  | .setRegisterPair i v => s.setPair (maskIndex i) v
  | .setFlagByte v => s.setReg flagIndex v
  | .forceHalt => s.forceHalt
  | .forceClearHalt => s.forceClearHalt
  | .replaceBus b => s.setBus b
  | .create mode => State.create mode s.bus

/-- Get register `i` (R215): `x[i & 0xF]`. -/
def State.hostRegister (s : State) (i : Nat) : Byte := s.reg (maskIndex i)

/-- Get a register pair (R215). -/
def State.hostRegisterPair (s : State) (i : Nat) : Word := s.pair (maskIndex i)

/-- The informational content of the diagnostic rendering (R210): "PC, SP, flags, and all registers". Its format
is out of scope (R5). -/
structure Rendering where
  pc : Word
  sp : Word
  flags : Byte
  registers : List Byte
  deriving DecidableEq, Repr

/-- What a rendering of the state shows (R210, R215); rendering changes nothing. -/
def State.rendering (s : State) : Rendering := ⟨s.pc, s.sp, s.flags, s.regs.toList⟩

end Sys2Proof.Machine
end

