-- ==== Sys2Proof/Machine/Step.lean ====
section
/-! DEFINITION. The step of spec/40_step_cycle.md R100, and the placing of an instruction where the step fetches
it. -/

namespace Sys2Proof.Machine

/-- One step (R100): idle while HALT is set (R101); otherwise the instruction at `pc` is fetched and
executed. -/
def step (s : State) : Host.Outcome State Fault Refusal :=
  if s.halted then .next s else exec s.fetchInstr s

/-- The state with the instruction whose bits are `w` at `pc` and the core running, so that the next step
fetches and runs it: the host's load of four bytes (log entry 13) and its force-clear-halt (R215). -/
def State.withFetchWord (s : State) (nbits w : Nat) : State :=
  (s.loadBytes s.pc (tableWordBytes nbits w)).forceClearHalt

end Sys2Proof.Machine
end

