-- ==== Sys2Proof/Safety.lean ====
section
/-! DEFINITION. The words the statements use: the invariant of a state, what a handler may change (the register
writers and flag writers of spec/10_state.md R32, the bus accesses of spec/20_memory.md R55), the relations
"unchanged but for", and the end of a run (spec/60_exceptions.md R213). -/

namespace Sys2Proof.Machine

/-- The invariant of a state: its bus has the form of R54. Every value of every register is legal (R22, R23), so
nothing is asked of the register file. -/
def State.Inv (s : State) : Prop := s.bus.wf = true

/-- R213: a run ends at the first state, reached after a step, in which HALT is 1. -/
def State.Ended (s : State) : Prop := s.halted = true

/-- Every register but those listed is the same in both states. -/
def SameRegistersBut (u t : State) (rs : List RegIdx) : Prop := ∀ i, i ∉ rs → t.reg i = u.reg i

/-- Every flag but those listed is the same in both states. -/
def SameFlagsBut (u t : State) (fs : List Flag) : Prop := ∀ f, f ∉ fs → t.flag f = u.flag f

/-- Every byte of the bus but those at the addresses listed reads the same, and the extent and the
writability of the bus are the same. -/
def SameMemoryBut (s t : State) (as : List Word) : Prop :=
  t.bus.size = s.bus.size ∧ t.bus.writable = s.bus.writable ∧ ∀ a, a ∉ as → t.readByte a = s.readByte a

/-- From the state `u` that the fetch from `s` leaves to `t`: register `d` takes `v`, and nothing else changes. The
flag byte is register 4, so no flag changes unless `d` is 4, and then all of it does. -/
def WritesByte (s u t : State) (d : RegIdx) (v : Byte) : Prop :=
  t.reg d = v ∧ SameRegistersBut u t [d] ∧ SameMemoryBut s t []

/-- From the state `u` that the fetch from `s` leaves to `t`: the pair of `d` takes `v`, and nothing else changes. -/
def WritesPair (s u t : State) (d : RegIdx) (v : Word) : Prop :=
  t.pair d = v ∧ SameRegistersBut u t [pairIndex d, pairIndex d + 1#4] ∧ SameMemoryBut s t []

/-- From the state `u` that the fetch from `s` leaves to `t`: register `d` takes the result `v` and a flag updater
then writes the flags `fs`. Where `d` is the flag byte itself, the flags outside `fs` take their bits of the
result (decision D4 of the spec); otherwise they are unchanged. -/
def WritesResult (s u t : State) (d : RegIdx) (v : Byte) (fs : List Flag) : Prop :=
  (d ≠ flagIndex → t.reg d = v ∧ SameFlagsBut u t fs) ∧
    (d = flagIndex → ∀ f, f ∉ fs → t.flag f = v.getLsbD f.bit) ∧
    SameRegistersBut u t [d, flagIndex] ∧ SameMemoryBut s t []

/-- The bits of the byte that are equal to `b`, counted. -/
def countBits (v : Byte) (b : Bool) : Nat := (List.range 8).countP (fun i => v.getLsbD i == b)

/-- Selector `sel` is the instruction `mk`, with every `argc` and both values of the predicated bit (R88, R89). -/
def Selects (sel : BitVec 5) (mk : Bool → List Byte → Instr) : Prop :=
  ∀ (op : Byte) (operands : List Byte), opcodeSelector op = sel →
    decodeOpcode op operands = mk (opcodePredicated op) operands

/-- The two registers of the pair an index names. -/
def pairRegisters (i : RegIdx) : List RegIdx := [pairIndex i, pairIndex i + 1#4]

/-- The registers that the handler of an instruction writes as a destination or as the stack pointer, in the
state the fetch leaves. A flag updater's write to the flag byte is not counted here. -/
def destRegisters (i : Instr) (u : State) : List RegIdx :=
  match i with
  | .nop _ _ | .cmp _ _ | .any _ _ | .all _ _ | .store _ _ | .set _ _ | .clear _ _ => []
  | .swap _ _ => [u.dest, u.src]
  | .rev _ _ | .zeros _ _ | .ones _ _ | .mov _ _ | .load _ _ => [u.dest]
  | .mov16 _ _ => pairRegisters u.dest
  | .call _ _ | .ret _ _ => pairRegisters u.dest ++ pairRegisters spIndex
  | .push _ _ => pairRegisters spIndex
  | .pop _ _ => u.dest :: pairRegisters spIndex
  | .and _ _ | .or _ _ | .xor _ _ | .not _ _ => [u.dest]
  | .add _ _ | .sub _ _ | .rsub _ _ | .neg _ _ => [u.dest]
  | .shl _ _ | .shr _ _ | .shlimm _ _ | .shrimm _ _ | .inc _ _ | .dec _ _ => [u.dest]

/-- The flags whose bit is set in a mask. -/
def maskFlags (m : Byte) : List Flag :=
  [Flag.cond, .halt, .gt, .eq, .lt, .neg, .zero, .carry].filter (fun f => m.getLsbD f.bit)

/-- R32: the flags that the handler of an instruction writes by name or by a flag updater. -/
def updatedFlags (i : Instr) (u : State) : List Flag :=
  match i with
  | .cmp _ _ => [.gt, .eq, .lt, .neg, .zero]
  | .any _ _ | .all _ _ => [.cond]
  | .and _ _ | .or _ _ | .xor _ _ | .not _ _ | .neg _ _ => [.neg, .zero]
  | .add _ _ | .sub _ _ | .rsub _ _ | .inc _ _ | .dec _ _ => [.neg, .zero, .carry]
  | .set _ _ | .clear _ _ => maskFlags u.arg
  | .nop _ _ | .swap _ _ | .rev _ _ | .zeros _ _ | .ones _ _ | .mov _ _ | .mov16 _ _ => []
  | .call _ _ | .ret _ _ | .load _ _ | .store _ _ | .push _ _ | .pop _ _ => []
  | .shl _ _ | .shr _ _ | .shlimm _ _ | .shrimm _ _ => []

/-- R55: the addresses that the handler of an instruction writes, in the state the fetch leaves. -/
def storedAddresses (i : Instr) (u : State) : List Word :=
  match i with
  | .store _ _ => [u.pair u.dest]
  | .push _ _ => [u.sp]
  | .call _ _ => [u.sp, u.sp + 1#16]
  | .nop _ _ | .cmp _ _ | .any _ _ | .all _ _ => []
  | .swap _ _ | .rev _ _ | .zeros _ _ | .ones _ _ | .mov _ _ | .mov16 _ _ => []
  | .ret _ _ | .load _ _ | .pop _ _ => []
  | .and _ _ | .or _ _ | .xor _ _ | .not _ _ => []
  | .add _ _ | .sub _ _ | .rsub _ _ | .neg _ _ => []
  | .shl _ _ | .shr _ _ | .shlimm _ _ | .shrimm _ _ | .inc _ _ | .dec _ _ => []
  | .set _ _ | .clear _ _ => []

end Sys2Proof.Machine
end

