-- ==== Sys2Proof/Certificates/Slice0/Obligations.lean ====
section
/-! DEFINITION. The statements about the model. In every one, `u` is `s.fetched ops`: the state the fetch of an
instruction with the operand bytes `ops` leaves, which `Obligations.FetchEffect` describes whole. The handler of the
instruction works on `u`; `s.runs p` says that the predicate test passes. -/

open Sys2Proof Sys2Proof.Machine

/-! ### Encoding -/

/-- The encoding and the decoding of a well-formed instruction agree, whatever bytes follow. -/
def Obligations.DecodeAfterEncode : Prop :=
  ∀ (i : Instr) (rest : List Byte), i.WellFormed = true → decode (encode i ++ rest) = .ok (i, rest)

/-- The other direction: an instruction that the decoder reads is well-formed, and its encoding is the bytes it
was read from. -/
def Obligations.EncodeAfterDecode : Prop :=
  ∀ (bs rest : List Byte) (i : Instr), decode bs = .ok (i, rest) → i.WellFormed = true ∧ encode i ++ rest = bs

/-- R103: `argc`, `p` and the selector of every opcode byte. Every opcode byte followed by three bytes decodes. -/
def Obligations.OpcodeFieldsDecode : Prop :=
  ∀ op b1 b2 b3 : Byte, ∃ (i : Instr) (rest : List Byte), decode [op, b1, b2, b3] = .ok (i, rest) ∧
    i.operands.length = op.toNat / 64 ∧ i.predicated = decide (op.toNat / 32 % 2 = 1) ∧
    i.selector.toNat = op.toNat % 32 ∧ i.operands ++ rest = [b1, b2, b3]

/-- A few words of the encoding tables of R88, R92 and R93, written out, decode to the instructions they stand
for. -/
def Obligations.SpecWordsDecode : Prop :=
  decode [0x00#8] = .ok (.nop false [], []) ∧
  decode [0x48#8, 0xA8#8] = .ok (.mov false [0xA8#8], []) ∧
  decode [0x5E#8, 0x40#8] = .ok (.set false [0x40#8], []) ∧
  decode [0x6B#8, 0x00#8] = .ok (.ret true [0x00#8], []) ∧
  decode [0xCA#8, 0x06#8, 0x20#8, 0x00#8] = .ok (.call false [0x06#8, 0x20#8, 0x00#8], []) ∧
  decode [0xFF#8, 1#8, 2#8, 3#8] = .ok (.clear true [1#8, 2#8, 3#8], [])

/-! ### The step -/

/-- R106: when the bytes at `pc` decode to an instruction and HALT is 0, the step is that instruction. `exec` is the
whole of a running step, the move of `pc` past the instruction included: the step adds only the HALT test. -/
def Obligations.StepRunsDecodedInstruction : Prop :=
  ∀ (s : State) (i : Instr) (rest : List Byte), s.halted = false →
    decode (s.bytesAt s.pc 4) = .ok (i, rest) → step s = exec i s

/-- R101: a step taken with HALT = 1 changes nothing and looks at no bus byte, and so do any number of further
steps. -/
def Obligations.HaltedStepsAreIdle : Prop :=
  ∀ s : State, s.halted = true →
    step s = .next s ∧ (∀ b : Bus, step (s.setBus b) = .next (s.setBus b)) ∧
      ∀ n : Nat, Host.Core.run Sys2Proof.core n s = .next s

/-- The step cannot fail: it always answers a next state. -/
def Obligations.StepAlwaysAnswersNext : Prop :=
  ∀ s : State, ∃ t, step s = .next t

/-- R102 and R104: the fetch. The opcode byte is read at `pc` and operand byte `k` at `pc + 1 + k`; `pc` moves
past all of them, modulo 65536; operand byte `k` is in A`k`, and every other scratch register, every other
register and the bus are as before. The fetch happens whatever the predicate test says: a running step is the
instruction read, which, when the test fails, answers exactly the fetched state. -/
def Obligations.FetchEffect : Prop :=
  ∀ s : State,
    let op := s.readByte s.pc
    let i := s.fetchInstr
    let u := s.fetched i.operands
    i = decodeOpcode op i.operands ∧ i.operands.length = op.toNat / 64 ∧
    (∀ k, k < i.operands.length → i.operands[k]? = some (s.readByte (s.pc + BitVec.ofNat 16 (1 + k)))) ∧
    u.pc = s.pc + BitVec.ofNat 16 (1 + i.operands.length) ∧
    u.reg a0Index = i.operands.getD 0 (s.reg a0Index) ∧
    u.reg a1Index = i.operands.getD 1 (s.reg a1Index) ∧
    u.reg a2Index = i.operands.getD 2 (s.reg a2Index) ∧
    SameRegistersBut s u [pcIndex, 1#4, a0Index, a1Index, a2Index] ∧ u.bus = s.bus ∧
    (s.halted = false → step s = exec i s) ∧ (s.runs i.predicated = false → exec i s = .next u)

/-- R107: a predicated instruction with COND = 0 moves `pc` past itself, loads its operand bytes, and does
nothing else, whichever of the 32 it is. -/
def Obligations.SkippedInstructionOnlyFetches : Prop :=
  ∀ (i : Instr) (s : State), i.WellFormed = true → i.predicated = true → s.flag .cond = false →
    ∃ t, exec i s = .next t ∧
      t.pc = s.pc + BitVec.ofNat 16 (1 + i.operands.length) ∧
      t.reg a0Index = i.operands.getD 0 (s.reg a0Index) ∧
      t.reg a1Index = i.operands.getD 1 (s.reg a1Index) ∧
      t.reg a2Index = i.operands.getD 2 (s.reg a2Index) ∧
      SameRegistersBut s t [pcIndex, 1#4, a0Index, a1Index, a2Index] ∧ t.bus = s.bus

/-- Outside the extent of the bus the core runs one-byte `nop`s (the last sentence of R90, which the spec derives):
`pc` moves by one and nothing else changes. -/
def Obligations.OutsideExtentRunsNop : Prop :=
  ∀ s : State, s.halted = false → s.bus.size ≤ s.pc.toNat →
    ∃ t, step s = .next t ∧ t.pc = s.pc + 1#16 ∧ SameRegistersBut s t [pcIndex, 1#4] ∧ t.bus = s.bus

/-- The final `pc` of every instruction that has no byte of `pc` among its destinations is past the instruction,
whether or not the handler runs (R108, which the spec derives; conflict C1). -/
def Obligations.PcAdvance : Prop :=
  ∀ (i : Instr) (s : State), i.WellFormed = true →
    (∀ r ∈ destRegisters i (s.fetched i.operands), pairIndex r ≠ pcIndex) →
    ∃ t, exec i s = .next t ∧ t.pc = s.pc + BitVec.ofNat 16 (1 + i.operands.length)

/-! ### Reset, invariants and rules of the whole machine -/

/-- R230: creation. In the zero-initialised mode every register is 0; in the randomised mode every register is as
drawn, but `pc` is 0 and HALT is 0; a new core runs; and creating one is the host's only reset. -/
def Obligations.CreationSetsRegisters : Prop :=
  (∀ b i, (State.create .zeroInitialised b).reg i = 0#8) ∧
  (∀ (draw : Vector Byte 16) (b : Bus) (i : RegIdx), pairIndex i ≠ pcIndex → i ≠ flagIndex →
    (State.create (.randomised draw) b).reg i = draw[i.toNat]'i.isLt) ∧
  (∀ (draw : Vector Byte 16) (b : Bus) (f : Flag), f ≠ .halt →
    (State.create (.randomised draw) b).flag f = draw[4].getLsbD f.bit) ∧
  (∀ mode b, (State.create mode b).pc = 0#16 ∧ (State.create mode b).halted = false ∧
    (State.create mode b).bus = b) ∧
  (∀ (s : State) (mode : ResetMode), s.hostAct (.create mode) = State.create mode s.bus)

/-- The bus of the state after reset has its form. That bus is the model's choice (log entries 2 and 3), and the mode
of the reset is too (log entry 1). -/
def Obligations.ResetKeepsInv : Prop := State.reset.Inv

/-- Every step keeps the form of the bus: its extent is 1 to 65536, and its contents are a canonical map from
addresses inside the extent. Holds of every state with the form, reachable or not. -/
def Obligations.StepKeepsInv : Prop :=
  ∀ s t : State, s.Inv → step s = .next t → t.Inv

/-- R32 and R55 as one frame over all 32 instructions: what an instruction changes beyond its fetch is a
destination register, a flag it updates, or a byte at an address it stores to. The tables are in Safety. -/
def Obligations.InstructionFrame : Prop :=
  ∀ (i : Instr) (s t : State), exec i s = .next t →
    let u := s.fetched i.operands
    (∀ r, r ∉ destRegisters i u → r ≠ flagIndex → t.reg r = u.reg r) ∧
    (flagIndex ∉ destRegisters i u → SameFlagsBut u t (updatedFlags i u)) ∧
    SameMemoryBut s t (storedAddresses i u)

/-- A running core comes to halt in one step only by `set` with the HALT bit, or by an instruction that has
register 4 among its destinations (R211; the converse is not claimed). -/
def Obligations.HaltEnteredOnlyBySetOrFlagByteWrite : Prop :=
  ∀ s t : State, s.halted = false → step s = .next t → t.halted = true →
    let i := s.fetchInstr
    let u := s.fetched i.operands
    (i = .set i.predicated i.operands ∧ u.arg.getLsbD Flag.halt.bit = true) ∨ flagIndex ∈ destRegisters i u

/-- Only `store`, `push` and `call` change a byte of the bus, and only at the addresses they store to; no step
changes the extent or the writability (R55). -/
def Obligations.OnlyStoringInstructionsChangeMemory : Prop :=
  ∀ s t : State, step s = .next t →
    let i := s.fetchInstr
    t.bus.size = s.bus.size ∧ t.bus.writable = s.bus.writable ∧
    ∀ a : Word, t.readByte a ≠ s.readByte a →
      s.halted = false ∧ a ∈ storedAddresses i (s.fetched i.operands)

/-- R53: on read-only storage a write is a no-op, no step changes the bus, and the core gets no indication of it:
within a step, the registers come out the same whether the bus is writable or not. -/
def Obligations.ReadOnlyBusIsUnchangedAndUnseen : Prop :=
  (∀ (b : Bus) (a : Word) (v : Byte), b.writable = false → b.write a v = b) ∧
  (∀ s t : State, s.bus.writable = false → step s = .next t → t.bus = s.bus) ∧
  ∀ (s t t' : State) (w : Bool), step s = .next t →
    step (s.setBus { s.bus with writable := w }) = .next t' → ∀ r, t'.reg r = t.reg r

/-! ### The bus, the register pairs and the flags -/

/-- R52: outside the extent, which is at most 65536, a read returns 0 and a write is discarded; and no step fails,
whatever it reads or writes. -/
def Obligations.OutOfRangeAccess : Prop :=
  (∀ (s : State) (a : Word) (v : Byte), s.bus.size ≤ a.toNat → s.readByte a = 0#8 ∧ s.writeByte a v = s) ∧
  (∀ s : State, s.Inv → s.bus.size ≤ 65536) ∧ ∀ s : State, ∃ t, step s = .next t

/-- The bus of R54 (decision D11): a write that lands is read back at its address, every other byte is as
before, and a write that does not land changes nothing. -/
def Obligations.ReadAfterWrite : Prop :=
  ∀ (s : State) (a : Word) (v : Byte),
    (s.bus.writable = true → a.toNat < s.bus.size → (s.writeByte a v).readByte a = v) ∧
    (∀ a', a' ≠ a → (s.writeByte a v).readByte a' = s.readByte a') ∧
    ((s.bus.writable = false ∨ s.bus.size ≤ a.toNat) → s.writeByte a v = s)

/-- The word accessors of R56 in both orders, the second address taken modulo 65536; the order of the two byte
accesses is the spec's decision D2. -/
def Obligations.WordAccessors : Prop :=
  ∀ (b : Bus) (a v : Word),
    (b.readWord .little a).toNat = 256 * (b.read (a + 1#16)).toNat + (b.read a).toNat ∧
    (b.readWord .big a).toNat = 256 * (b.read a).toNat + (b.read (a + 1#16)).toNat ∧
    ∀ order, b.writeLands a = true → b.writeLands (a + 1#16) = true →
      (b.writeWord order a v).readWord order a = v ∧
      ((b.writeWord .little a v).read a).toNat = v.toNat % 256 ∧
      ((b.writeWord .little a v).read (a + 1#16)).toNat = v.toNat / 256 ∧
      ((b.writeWord .big a v).read a).toNat = v.toNat / 256 ∧
      ((b.writeWord .big a v).read (a + 1#16)).toNat = v.toNat % 256 ∧
      ∀ a', a' ≠ a → a' ≠ a + 1#16 → (b.writeWord order a v).read a' = b.read a'

/-- R24: a pair is two registers at an even index, the even one its low byte; an odd index is masked down; a
write to a pair changes those two registers alone. -/
def Obligations.PairAccess : Prop :=
  ∀ (s : State) (i : RegIdx) (v : Word),
    ∃ k : RegIdx, k.toNat = i.toNat / 2 * 2 ∧
      (s.pair i).toNat = 256 * (s.reg (k + 1#4)).toNat + (s.reg k).toNat ∧ s.pair (k + 1#4) = s.pair k ∧
      (s.setPair i v).pair i = v ∧ ((s.setPair i v).reg k).toNat = v.toNat % 256 ∧
      ((s.setPair i v).reg (k + 1#4)).toNat = v.toNat / 256 ∧
      SameRegistersBut s (s.setPair i v) [k, k + 1#4] ∧ (s.setPair i v).bus = s.bus

/-- R25: a pair is incremented and decremented modulo 65536, the carry reaching its high byte; no other register
changes. -/
def Obligations.PairIncrementWraps : Prop :=
  ∀ (s : State) (i : RegIdx) (n : Word),
    ((s.addPair i n).pair i).toNat = ((s.pair i).toNat + n.toNat) % 65536 ∧
    ((s.subPair i n).pair i).toNat = ((s.pair i).toNat + 65536 - n.toNat) % 65536 ∧
    SameRegistersBut s (s.addPair i n) (pairRegisters i) ∧ SameRegistersBut s (s.subPair i n) (pairRegisters i)

/-- R28 and R29: the flags are the eight bits of register 4, COND first and CARRY last, and a flag write changes
its own bit alone (assignment is the spec's decision D9). -/
def Obligations.FlagWriteFrame : Prop :=
  (∀ s : State, (s.reg flagIndex).toNat =
    128 * (s.flag .cond).toNat + 64 * (s.flag .halt).toNat + 32 * (s.flag .gt).toNat + 16 * (s.flag .eq).toNat +
    8 * (s.flag .lt).toNat + 4 * (s.flag .neg).toNat + 2 * (s.flag .zero).toNat + (s.flag .carry).toNat) ∧
  ∀ (s : State) (f : Flag) (b : Bool),
    (s.setFlag f b).flag f = b ∧ SameFlagsBut s (s.setFlag f b) [f] ∧
    SameRegistersBut s (s.setFlag f b) [flagIndex] ∧ (s.setFlag f b).bus = s.bus

/-! ### No-op, compare and predicate instructions -/

/-- `nop` (R120): the fetch, and nothing else, whether or not it is predicated. -/
def Obligations.NopCompletes : Prop :=
  Selects 0x00#5 .nop ∧
  ∀ (p : Bool) (ops : List Byte) (s : State), exec (.nop p ops) s = .next (s.fetched ops)

/-- `cmp` (R121): GT, EQ and LT from the unsigned comparison, exactly one of them 1; NEG and ZERO from the right
operand; the other flags, the other registers and memory unchanged. Assignment of the flags and the reading of
both operands before any write are the spec's decisions D9 and D3. -/
def Obligations.CmpResult : Prop :=
  ∀ (p : Bool) (ops : List Byte) (s : State), s.runs p = true →
    let u := s.fetched ops
    let a := (u.reg u.dest).toNat
    let b := (u.reg u.src).toNat
    ∃ t, exec (.cmp p ops) s = .next t ∧
      t.flag .gt = decide (a > b) ∧ t.flag .eq = decide (a = b) ∧ t.flag .lt = decide (a < b) ∧
      t.flag .neg = decide (b ≥ 128) ∧ t.flag .zero = decide (b = 0) ∧
      SameFlagsBut u t [.gt, .eq, .lt, .neg, .zero] ∧ SameRegistersBut u t [flagIndex] ∧ SameMemoryBut s t []

/-- `any` and `all` (R122, R123): COND becomes 1 iff `(flags & arg) != 0`, or iff `(flags & arg) = arg`; that is,
iff some flag, or every flag, of the mask is set. No other bit changes. -/
def Obligations.AnyAllResult : Prop :=
  Selects 0x02#5 .any ∧ Selects 0x03#5 .all ∧
  ∀ (p : Bool) (ops : List Byte) (s : State), s.runs p = true →
    let u := s.fetched ops
    let mask := u.reg a0Index
    (∃ t, exec (.any p ops) s = .next t ∧
      (t.flag .cond = true ↔ ∃ f, u.flag f = true ∧ mask.getLsbD f.bit = true) ∧
      SameFlagsBut u t [.cond] ∧ SameRegistersBut u t [flagIndex] ∧ SameMemoryBut s t []) ∧
    (∃ t, exec (.all p ops) s = .next t ∧
      (t.flag .cond = true ↔ ∀ f, mask.getLsbD f.bit = true → u.flag f = true) ∧
      SameFlagsBut u t [.cond] ∧ SameRegistersBut u t [flagIndex] ∧ SameMemoryBut s t [])

/-! ### Exchange, bit-count and move instructions (no flag written: the spec's decision D5) -/

/-- `swap` (R130). -/
def Obligations.SwapResult : Prop :=
  ∀ (p : Bool) (ops : List Byte) (s : State), s.runs p = true →
    let u := s.fetched ops
    ∃ t, exec (.swap p ops) s = .next t ∧
      t.reg u.dest = u.reg u.src ∧ t.reg u.src = u.reg u.dest ∧
      SameRegistersBut u t [u.dest, u.src] ∧ SameMemoryBut s t []

/-- `rev` (R131): bit `i` of the source is bit `7 - i` of the result (the spec's GK1). -/
def Obligations.RevResult : Prop :=
  ∀ (p : Bool) (ops : List Byte) (s : State), s.runs p = true →
    let u := s.fetched ops
    ∃ t v, exec (.rev p ops) s = .next t ∧ WritesByte s u t u.dest v ∧
      ∀ k, k < 8 → v.getLsbD (7 - k) = (u.reg u.src).getLsbD k

/-- `zeros` and `ones` (R132, R133): the number of 0 bits and of 1 bits; together they are 8. -/
def Obligations.BitCountResults : Prop :=
  ∀ (p : Bool) (ops : List Byte) (s : State), s.runs p = true →
    let u := s.fetched ops
    ∃ t t' z o, exec (.zeros p ops) s = .next t ∧ exec (.ones p ops) s = .next t' ∧
      WritesByte s u t u.dest z ∧ z.toNat = countBits (u.reg u.src) false ∧
      WritesByte s u t' u.dest o ∧ o.toNat = countBits (u.reg u.src) true ∧ o.toNat + z.toNat = 8

/-- `mov` (R134). -/
def Obligations.MovResult : Prop :=
  ∀ (p : Bool) (ops : List Byte) (s : State), s.runs p = true →
    let u := s.fetched ops
    ∃ t, exec (.mov p ops) s = .next t ∧ WritesByte s u t u.dest (u.reg u.src)

/-- `mov16` (R135): with a destination pair at index 0 it is a jump to the copied word. -/
def Obligations.Mov16Result : Prop :=
  ∀ (p : Bool) (ops : List Byte) (s : State), s.runs p = true →
    let u := s.fetched ops
    ∃ t, exec (.mov16 p ops) s = .next t ∧ WritesPair s u t u.dest (u.pair u.src) ∧
      (pairIndex u.dest = pcIndex → t.pc = u.pair u.src)

/-! ### Call, return, load, store, push and pop (byte order D1, order of effects D3, no flag written D5: decisions
of the spec) -/

/-- `call` (R140). The word of pair dest goes to `[sp]` (low byte) and `[sp + 1]` (high byte) where the writes
land; `sp` moves up by 2 unless dest is the `sp` pair; pair dest takes pair src, which is the moved `sp` where src is
the `sp` pair. No other byte of memory and no other register changes. -/
def Obligations.CallResult : Prop :=
  ∀ (p : Bool) (ops : List Byte) (s : State), s.runs p = true →
    let u := s.fetched ops
    let v := u.pair u.dest
    ∃ t, exec (.call p ops) s = .next t ∧
      t.pair u.dest = (if pairIndex u.src = spIndex then u.sp + 2#16 else u.pair u.src) ∧
      (pairIndex u.dest ≠ spIndex → t.sp = u.sp + 2#16) ∧
      SameRegistersBut u t (pairRegisters u.dest ++ pairRegisters spIndex) ∧
      (s.bus.writeLands u.sp = true → (t.readByte u.sp).toNat = v.toNat % 256) ∧
      (s.bus.writeLands (u.sp + 1#16) = true → (t.readByte (u.sp + 1#16)).toNat = v.toNat / 256) ∧
      (s.bus.writeLands u.sp = false → t.readByte u.sp = s.readByte u.sp) ∧
      (s.bus.writeLands (u.sp + 1#16) = false → t.readByte (u.sp + 1#16) = s.readByte (u.sp + 1#16)) ∧
      SameMemoryBut s t [u.sp, u.sp + 1#16]

/-- `ret` (R141): `sp` moves down by 2, and pair dest takes the word there, low byte first; where dest is the `sp`
pair, the word replaces the moved `sp`. -/
def Obligations.RetResult : Prop :=
  ∀ (p : Bool) (ops : List Byte) (s : State), s.runs p = true →
    let u := s.fetched ops
    ∃ t, exec (.ret p ops) s = .next t ∧
      (t.pair u.dest).toNat = 256 * (s.readByte (u.sp - 1#16)).toNat + (s.readByte (u.sp - 2#16)).toNat ∧
      (pairIndex u.dest ≠ spIndex → t.sp = u.sp - 2#16) ∧
      SameRegistersBut u t (pairRegisters u.dest ++ pairRegisters spIndex) ∧ SameMemoryBut s t []

/-- `load` (R142). -/
def Obligations.LoadResult : Prop :=
  ∀ (p : Bool) (ops : List Byte) (s : State), s.runs p = true →
    let u := s.fetched ops
    ∃ t, exec (.load p ops) s = .next t ∧ WritesByte s u t u.dest (s.readByte (u.pair u.src))

/-- `store` (R143): the byte at the address in pair dest takes the source register where the write lands; no
register and no other byte changes. -/
def Obligations.StoreResult : Prop :=
  ∀ (p : Bool) (ops : List Byte) (s : State), s.runs p = true →
    let u := s.fetched ops
    let a := u.pair u.dest
    ∃ t, exec (.store p ops) s = .next t ∧
      (s.bus.writeLands a = true → t.readByte a = u.reg u.src) ∧
      (s.bus.writeLands a = false → t.readByte a = s.readByte a) ∧
      SameRegistersBut u t [] ∧ SameMemoryBut s t [a]

/-- `push` (R144): the byte at `[sp]` takes the source register, as it is before `sp` moves, where the write lands;
then `sp` moves up by 1. -/
def Obligations.PushResult : Prop :=
  ∀ (p : Bool) (ops : List Byte) (s : State), s.runs p = true →
    let u := s.fetched ops
    ∃ t, exec (.push p ops) s = .next t ∧ t.sp = u.sp + 1#16 ∧
      (s.bus.writeLands u.sp = true → t.readByte u.sp = u.reg u.src) ∧
      (s.bus.writeLands u.sp = false → t.readByte u.sp = s.readByte u.sp) ∧
      SameRegistersBut u t (pairRegisters spIndex) ∧ SameMemoryBut s t [u.sp]

/-- `pop` (R145): `sp` moves down by 1, and dest takes the byte there; where dest is a byte of `sp`, it replaces
that byte of the moved `sp`, whose other byte stays. -/
def Obligations.PopResult : Prop :=
  ∀ (p : Bool) (ops : List Byte) (s : State), s.runs p = true →
    let u := s.fetched ops
    ∃ t, exec (.pop p ops) s = .next t ∧
      t.reg u.dest = s.readByte (u.sp - 1#16) ∧
      (pairIndex u.dest ≠ spIndex → t.sp = u.sp - 1#16) ∧
      (u.dest = 2#4 → (t.reg 3#4).toNat = (u.sp - 1#16).toNat / 256) ∧
      (u.dest = 3#4 → (t.reg 2#4).toNat = (u.sp - 1#16).toNat % 256) ∧
      SameRegistersBut u t (u.dest :: pairRegisters spIndex) ∧ SameMemoryBut s t []

/-! ### Logic and arithmetic (assignment of the flags D9, the flag byte as destination D4, the complement's width D8:
decisions of the spec) -/

/-- `and`, `or`, `xor` and `not` (R150 to R153): the result bit by bit, NEG and ZERO from it. -/
def Obligations.LogicResults : Prop :=
  ∀ (p : Bool) (ops : List Byte) (s : State), s.runs p = true →
    let u := s.fetched ops
    let a := u.reg u.dest
    let b := u.reg u.src
    let result := fun (i : Instr) (bit : Bool → Bool → Bool) =>
      ∃ t v, exec i s = .next t ∧ (∀ k, k < 8 → v.getLsbD k = bit (a.getLsbD k) (b.getLsbD k)) ∧
        t.flag .neg = decide (v.toNat ≥ 128) ∧ t.flag .zero = decide (v.toNat = 0) ∧
        WritesResult s u t u.dest v [.neg, .zero]
    result (.and p ops) (fun x y => x && y) ∧ result (.or p ops) (fun x y => x || y) ∧
    result (.xor p ops) (fun x y => x != y) ∧ result (.not p ops) (fun _ y => !y)

/-- `add` (R160): the sum with carry-in, NEG and ZERO from its low byte, CARRY when it passes 255. -/
def Obligations.AddResult : Prop :=
  ∀ (p : Bool) (ops : List Byte) (s : State), s.runs p = true →
    let u := s.fetched ops
    let sum := (u.reg u.dest).toNat + (u.reg u.src).toNat + (u.flag .carry).toNat
    ∃ t v, exec (.add p ops) s = .next t ∧ v.toNat = sum % 256 ∧
      t.flag .neg = decide (sum % 256 ≥ 128) ∧ t.flag .zero = decide (sum % 256 = 0) ∧
      t.flag .carry = decide (sum > 255) ∧ WritesResult s u t u.dest v [.neg, .zero, .carry]

/-- `sub` and `rsub` (R161, R162): the difference less the borrow `1 - C`, modulo 256; CARRY is 1 exactly when there
is no borrow out. That `rsub` updates the flags is the spec's decision D6. -/
def Obligations.SubtractResults : Prop :=
  ∀ (p : Bool) (ops : List Byte) (s : State), s.runs p = true →
    let u := s.fetched ops
    let a := (u.reg u.dest).toNat
    let b := (u.reg u.src).toNat
    let borrow := 1 - (u.flag .carry).toNat
    let result := fun (i : Instr) (x y : Nat) =>
      ∃ t v, exec i s = .next t ∧ v.toNat = (x + 256 - y - borrow) % 256 ∧
        t.flag .neg = decide (v.toNat ≥ 128) ∧ t.flag .zero = decide (v.toNat = 0) ∧
        t.flag .carry = decide (x ≥ y + borrow) ∧ WritesResult s u t u.dest v [.neg, .zero, .carry]
    result (.sub p ops) a b ∧ result (.rsub p ops) b a

/-- `neg` (R163): `0 - x[src]` modulo 256; NEG and ZERO from it, CARRY untouched. -/
def Obligations.NegResult : Prop :=
  ∀ (p : Bool) (ops : List Byte) (s : State), s.runs p = true →
    let u := s.fetched ops
    ∃ t v, exec (.neg p ops) s = .next t ∧ v.toNat = (256 - (u.reg u.src).toNat) % 256 ∧
      t.flag .neg = decide (v.toNat ≥ 128) ∧ t.flag .zero = decide (v.toNat = 0) ∧
      WritesResult s u t u.dest v [.neg, .zero]

/-! ### Shifts and immediate steps -/

/-- `shl` (R170): the amount is the whole source byte, the bits shifted out are lost, 8 or more gives 0, and no flag
changes but through a destination register 4. -/
def Obligations.ShlResult : Prop :=
  Selects 0x18#5 .shl ∧
  ∀ (p : Bool) (ops : List Byte) (s : State), s.runs p = true →
    let u := s.fetched ops
    let n := (u.reg u.src).toNat
    ∃ t v, exec (.shl p ops) s = .next t ∧ WritesByte s u t u.dest v ∧
      v.toNat = (u.reg u.dest).toNat * 2 ^ n % 256 ∧ (n ≥ 8 → v = 0#8)

/-- `shr` (R171): as `shl`, to the right, and logical, as the spec derives. -/
def Obligations.ShrResult : Prop :=
  ∀ (p : Bool) (ops : List Byte) (s : State), s.runs p = true →
    let u := s.fetched ops
    let n := (u.reg u.src).toNat
    ∃ t v, exec (.shr p ops) s = .next t ∧ WritesByte s u t u.dest v ∧
      v.toNat = (u.reg u.dest).toNat / 2 ^ n ∧ (n ≥ 8 → v = 0#8)

/-- `shlimm` and `shrimm` (R172, R173): the amount is the low nibble of A0. That 8 to 15 give 0 and that no flag is
written are the spec's decision D7. -/
def Obligations.ShiftImmediateResults : Prop :=
  ∀ (p : Bool) (ops : List Byte) (s : State), s.runs p = true →
    let u := s.fetched ops
    let n := (u.reg a0Index).toNat % 16
    ∃ t t' v v', exec (.shlimm p ops) s = .next t ∧ exec (.shrimm p ops) s = .next t' ∧
      WritesByte s u t u.dest v ∧ v.toNat = (u.reg u.dest).toNat * 2 ^ n % 256 ∧ (n ≥ 8 → v = 0#8) ∧
      WritesByte s u t' u.dest v' ∧ v'.toNat = (u.reg u.dest).toNat / 2 ^ n ∧ (n ≥ 8 → v' = 0#8)

/-- `inc` and `dec` (R174, R175): the immediate is the low nibble of A0, and CARRY is not read. After `inc` CARRY is 1
when the sum passes 255; after `dec`, when there is no borrow (decision D8 of the spec). -/
def Obligations.IncDecResults : Prop :=
  ∀ (p : Bool) (ops : List Byte) (s : State), s.runs p = true →
    let u := s.fetched ops
    let a := (u.reg u.dest).toNat
    let n := (u.reg a0Index).toNat % 16
    (∃ t v, exec (.inc p ops) s = .next t ∧ v.toNat = (a + n) % 256 ∧
      t.flag .neg = decide (v.toNat ≥ 128) ∧ t.flag .zero = decide (v.toNat = 0) ∧
      t.flag .carry = decide (a + n > 255) ∧ WritesResult s u t u.dest v [.neg, .zero, .carry]) ∧
    (∃ t v, exec (.dec p ops) s = .next t ∧ v.toNat = (a + 256 - n) % 256 ∧
      t.flag .neg = decide (v.toNat ≥ 128) ∧ t.flag .zero = decide (v.toNat = 0) ∧
      t.flag .carry = decide (a ≥ n) ∧ WritesResult s u t u.dest v [.neg, .zero, .carry])

/-! ### Flag control -/

/-- `set` and `clear` (R180, R181): every flag of the mask becomes 1, or 0; every other flag keeps its value. A `set`
with the HALT bit completes, and every later step is idle. -/
def Obligations.SetClearResults : Prop :=
  Selects 0x1E#5 .set ∧ Selects 0x1F#5 .clear ∧
  ∀ (p : Bool) (ops : List Byte) (s : State), s.runs p = true →
    let u := s.fetched ops
    let mask := u.reg a0Index
    (∃ t, exec (.set p ops) s = .next t ∧
      (∀ f, t.flag f = (if mask.getLsbD f.bit = true then true else u.flag f)) ∧
      SameRegistersBut u t [flagIndex] ∧ SameMemoryBut s t [] ∧
      (mask.getLsbD 6 = true → ∀ n, Host.Core.run Sys2Proof.core n t = .next t)) ∧
    (∃ t, exec (.clear p ops) s = .next t ∧
      (∀ f, t.flag f = (if mask.getLsbD f.bit = true then false else u.flag f)) ∧
      SameRegistersBut u t [flagIndex] ∧ SameMemoryBut s t [])

/-! ### Round trips and chained arithmetic -/

/-- `push` then `pop` (R146, which the spec derives): where the stack byte is inside the extent of a writable bus, the
predicate tests pass and the popped register is no byte of `sp`, the pop gives the pushed byte and restores `sp`. -/
def Obligations.PushPopRoundTrip : Prop :=
  ∀ (p p' : Bool) (ops ops' : List Byte) (s : State),
    s.runs p = true → s.runs p' = true → s.bus.writeLands s.sp = true →
    let u := s.fetched ops
    ∃ t t', exec (.push p ops) s = .next t ∧ exec (.pop p' ops') t = .next t' ∧
      let d := (t.fetched ops').dest
      (pairIndex d ≠ spIndex → t'.reg d = u.reg u.src ∧ t'.sp = s.sp)

/-- `call` then `ret` (R146, which the spec derives): the return may run in any later state `w` that has the `sp` the
call left and the two stack bytes it wrote. It gives back the saved pair and the old `sp`; where the saved pair is
`pc`, that is the address of the byte after the call. -/
def Obligations.CallRetRoundTrip : Prop :=
  ∀ (p p' : Bool) (ops ops' : List Byte) (s t w : State),
    s.runs p = true → ops.length ≤ 3 → s.bus.writeLands s.sp = true → s.bus.writeLands (s.sp + 1#16) = true →
    exec (.call p ops) s = .next t → pairIndex (s.fetched ops).dest ≠ spIndex →
    w.runs p' = true → w.sp = t.sp → w.readByte s.sp = t.readByte s.sp →
    w.readByte (s.sp + 1#16) = t.readByte (s.sp + 1#16) →
    let u := s.fetched ops
    let d := (w.fetched ops').dest
    ∃ t', exec (.ret p' ops') w = .next t' ∧ t'.pair d = u.pair u.dest ∧
      (pairIndex d ≠ spIndex → t'.sp = s.sp) ∧
      (pairIndex u.dest = pcIndex → t'.pair d = s.pc + BitVec.ofNat 16 (1 + ops.length))

/-- Mixed-width access (R58, which the spec derives from its little-endian stack word, D1): two `pop`s after a `call`
give the high byte of the saved pair and then its low byte, and restore `sp`. -/
def Obligations.CallThenTwoPops : Prop :=
  ∀ (p : Bool) (ops ops1 ops2 : List Byte) (s t : State),
    s.runs p = true → s.bus.writeLands s.sp = true → s.bus.writeLands (s.sp + 1#16) = true →
    exec (.call p ops) s = .next t → pairIndex (s.fetched ops).dest ≠ spIndex →
    pairIndex (t.fetched ops1).dest ≠ spIndex →
    let v := (s.fetched ops).pair (s.fetched ops).dest
    ∃ t1 t2, exec (.pop false ops1) t = .next t1 ∧ exec (.pop false ops2) t1 = .next t2 ∧
      (t1.reg (t.fetched ops1).dest).toNat = v.toNat / 256 ∧
      (t2.reg (t1.fetched ops2).dest).toNat = v.toNat % 256 ∧
      (pairIndex (t1.fetched ops2).dest ≠ spIndex → t2.sp = s.sp)

/-- A byte stored where the next instruction is to be fetched is the opcode byte of the next step, with no barrier
(R67 and R240, which the spec derives). -/
def Obligations.StoredOpcodeIsFetchedNext : Prop :=
  ∀ (p : Bool) (ops : List Byte) (s : State), s.runs p = true →
    let u := s.fetched ops
    u.pair u.dest = u.pc → s.bus.writeLands u.pc = true →
    ∃ t, exec (.store p ops) s = .next t ∧
      t.fetchInstr.selector = opcodeSelector (u.reg u.src) ∧
      t.fetchInstr.predicated = opcodePredicated (u.reg u.src) ∧
      t.fetchInstr.operands.length = opcodeArgc (u.reg u.src)

/-- Chained addition (R164): two `add`s, low byte first, on general-purpose registers add two 16-bit numbers and the
carry-in, exactly. The registers are r8 to r15, so that no fetch touches them. -/
def Obligations.ChainedAddition : Prop :=
  ∀ (s : State) (lo hi : Byte),
    let d1 := lo.extractLsb' 4 4
    let s1 := lo.extractLsb' 0 4
    let d2 := hi.extractLsb' 4 4
    let s2 := hi.extractLsb' 0 4
    (∀ r ∈ [d1, s1, d2, s2], r.toNat ≥ 8) → d1 ≠ d2 → d1 ≠ s2 →
    ∃ t t', exec (.add false [lo]) s = .next t ∧ exec (.add false [hi]) t = .next t' ∧
      65536 * (t'.flag .carry).toNat + 256 * (t'.reg d2).toNat + (t'.reg d1).toNat =
        256 * (s.reg d2).toNat + (s.reg d1).toNat + (256 * (s.reg s2).toNat + (s.reg s1).toNat) +
          (s.flag .carry).toNat

/-- Chained subtraction (R164; the flags of `rsub` are decision D6): two `sub`s, or two `rsub`s, low byte first,
subtract two 16-bit numbers, a carry-in of 1 being no borrow in and a carry-out of 1 no borrow out. -/
def Obligations.ChainedSubtraction : Prop :=
  ∀ (s : State) (lo hi : Byte),
    let d1 := lo.extractLsb' 4 4
    let s1 := lo.extractLsb' 0 4
    let d2 := hi.extractLsb' 4 4
    let s2 := hi.extractLsb' 0 4
    let dest := 256 * (s.reg d2).toNat + (s.reg d1).toNat
    let src := 256 * (s.reg s2).toNat + (s.reg s1).toNat
    (∀ r ∈ [d1, s1, d2, s2], r.toNat ≥ 8) → d1 ≠ d2 → d1 ≠ s2 →
    (∃ t t', exec (.sub false [lo]) s = .next t ∧ exec (.sub false [hi]) t = .next t' ∧
      256 * (t'.reg d2).toNat + (t'.reg d1).toNat + src + 1 + 65536 * (t'.flag .carry).toNat =
        dest + 65536 + (s.flag .carry).toNat) ∧
    (∃ t t', exec (.rsub false [lo]) s = .next t ∧ exec (.rsub false [hi]) t = .next t' ∧
      256 * (t'.reg d2).toNat + (t'.reg d1).toNat + dest + 1 + 65536 * (t'.flag .carry).toNat =
        src + 65536 + (s.flag .carry).toNat)

/-! ### The host -/

/-- R23: the host gets and sets a byte register by any index, masked into 0 to 15, and sets that register alone. -/
def Obligations.HostRegisterAccess : Prop :=
  ∀ (s : State) (i j : Nat) (v : Byte),
    (s.hostAct (.setRegister i v)).hostRegister j = (if i % 16 = j % 16 then v else s.hostRegister j) ∧
    (s.hostAct (.setRegister i v)).bus = s.bus ∧ s.hostRegister (j + 16) = s.hostRegister j

/-- The host's force-halt makes every step idle, and its force-clear-halt lets a halted core go on with the
instruction at its `pc`; neither touches another flag, another register or the bus (R211, R215). -/
def Obligations.HostHaltControl : Prop :=
  ∀ s : State,
    (let h := s.hostAct .forceHalt
     h.halted = true ∧ step h = .next h ∧ SameFlagsBut s h [.halt] ∧ SameRegistersBut s h [flagIndex] ∧
       h.bus = s.bus) ∧
    (let c := s.hostAct .forceClearHalt
     c.halted = false ∧ step c = exec s.fetchInstr c ∧ SameFlagsBut s c [.halt] ∧
       SameRegistersBut s c [flagIndex] ∧ c.bus = s.bus)
end

