-- ==== Sys2Proof/Laws/Decode.lean ====
section
/-! SUPPORT. The fields of an opcode byte (spec/30_encoding.md R80, R89). -/

namespace Sys2Proof

/-- R89: the fields of the opcode byte that the encoder builds. -/
theorem encodeOpcode_fields (n : Nat) (p : Bool) (sel : BitVec 5) (h : n ≤ Config.maxOperands) :
    opcodeArgc (encodeOpcode n p sel) = n ∧ opcodePredicated (encodeOpcode n p sel) = p ∧
      opcodeSelector (encodeOpcode n p sel) = sel := by
  simp only [Config.maxOperands] at h
  interval_cases n <;> revert p sel <;> decide

/-- R80: `argc` is 0 to 3. -/
theorem opcodeArgc_le (op : Byte) : opcodeArgc op ≤ Config.maxOperands := by
  have := (op.extractLsb' 6 2).isLt
  simp only [opcodeArgc, Config.maxOperands]
  omega

/-- R89: an opcode byte is the one the encoder builds from its fields. -/
theorem encodeOpcode_of_fields (op : Byte) :
    encodeOpcode (opcodeArgc op) (opcodePredicated op) (opcodeSelector op) = op := by
  revert op; decide

/-- R88: the 32 selectors are distinct names of the 32 instructions. -/
theorem selector_instrOfSelector (sel : BitVec 5) (p : Bool) (operands : List Byte) :
    (instrOfSelector sel p operands).selector = sel := by
  have h : ∀ sel : BitVec 5, (instrOfSelector sel p operands).selector = sel := by
    intro sel
    have := sel.isLt
    generalize hn : sel.toNat = n at this
    have e : sel = BitVec.ofNat 5 n := by simp [← hn]
    subst e
    interval_cases n <;> rfl
  exact h sel

/-- The fields of the instruction of a selector. -/
theorem fields_instrOfSelector (sel : BitVec 5) (p : Bool) (operands : List Byte) :
    (instrOfSelector sel p operands).predicated = p ∧ (instrOfSelector sel p operands).operands = operands := by
  have := sel.isLt
  generalize hn : sel.toNat = n at this
  have e : sel = BitVec.ofNat 5 n := by simp [← hn]
  subst e
  interval_cases n <;> exact ⟨rfl, rfl⟩

end Sys2Proof
end

