-- ==== Sys2Proof/Laws/State.lean ====
section
/-! SUPPORT. What each update of a state does to each field: the register file and the bus, read through
`State.reg` and `State.bus`. -/

namespace Sys2Proof.Machine

@[simp] theorem State.reg_setReg (s : State) (i j : RegIdx) (v : Byte) :
    (s.setReg i v).reg j = if i = j then v else s.reg j := by
  simp only [State.setReg, State.reg, Vector.getElem_set, BitVec.toNat_inj]

@[simp] theorem State.bus_setReg (s : State) (i : RegIdx) (v : Byte) : (s.setReg i v).bus = s.bus := rfl

@[simp] theorem State.reg_setBus (s : State) (b : Bus) (i : RegIdx) : (s.setBus b).reg i = s.reg i := rfl

@[simp] theorem State.regs_setBus (s : State) (b : Bus) : (s.setBus b).regs = s.regs := rfl

@[simp] theorem State.bus_setBus (s : State) (b : Bus) : (s.setBus b).bus = b := rfl

@[simp] theorem State.pair_setBus (s : State) (b : Bus) (i : RegIdx) : (s.setBus b).pair i = s.pair i := rfl

@[simp] theorem State.flags_setBus (s : State) (b : Bus) : (s.setBus b).flags = s.flags := rfl

@[simp] theorem State.readByte_setReg (s : State) (i : RegIdx) (v : Byte) (a : Word) :
    (s.setReg i v).readByte a = s.readByte a := rfl

@[simp] theorem State.readByte_setBus (s : State) (b : Bus) (a : Word) :
    (s.setBus b).readByte a = b.read a := rfl

@[simp] theorem State.bus_writeByte (s : State) (a : Word) (v : Byte) :
    (s.writeByte a v).bus = s.bus.write a v := rfl

@[simp] theorem State.reg_writeByte (s : State) (a : Word) (v : Byte) (i : RegIdx) :
    (s.writeByte a v).reg i = s.reg i := rfl

@[simp] theorem State.reg_writeWord (s : State) (a v : Word) (i : RegIdx) :
    (s.writeWord a v).reg i = s.reg i := rfl

/-- Two states are equal when their 16 registers and their buses are (R37, R38). -/
theorem State.ext_reg {s t : State} (hr : ∀ i, s.reg i = t.reg i) (hb : s.bus = t.bus) : s = t := by
  obtain ⟨r, b⟩ := s
  obtain ⟨r', b'⟩ := t
  congr 1
  ext i hi
  have h := hr (BitVec.ofNat 4 i)
  have e : (BitVec.ofNat 4 i).toNat = i := by simp; omega
  simp only [State.reg, e] at h
  rw [h]

end Sys2Proof.Machine
end

