-- ==== Sys2Proof/Laws/Memory.lean ====
section
/-! SUPPORT. What the memory and bus operations do (spec/20_memory.md R52 to R56), and that they keep the
canonical form. -/

namespace Sys2Proof.Machine

/-! ### Reading after a write -/

theorem Memory.read_erase (m : Memory) (a b : Nat) :
    Memory.read (Memory.erase m a) b = if a = b then Memory.unlisted else Memory.read m b := by
  induction m with
  | nil => simp [Memory.erase, Memory.read]
  | cons c m ih =>
    obtain ⟨k, v⟩ := c
    simp only [Memory.erase] at ih
    by_cases hk : k = a
    · subst hk
      simp only [Memory.erase, Memory.read, ne_eq, not_true_eq_false, decide_false, Bool.false_eq_true,
        not_false_eq_true, List.filter_cons_of_neg, ih]
      split <;> simp_all
    · simp only [Memory.erase, Memory.read, ne_eq, hk, not_false_eq_true, decide_true,
        List.filter_cons_of_pos, ih]
      split <;> split <;> simp_all

theorem Memory.read_insert (m : Memory) (a b : Nat) (v : Byte) (h : Memory.read m a = Memory.unlisted)
    (hk : ∀ c ∈ m, c.1 ≠ a) :
    Memory.read (Memory.insert m a v) b = if a = b then v else Memory.read m b := by
  induction m with
  | nil => simp [Memory.insert, Memory.read]
  | cons c m ih =>
    obtain ⟨k, w⟩ := c
    have hka : k ≠ a := hk (k, w) (by simp)
    simp only [Memory.read, hka, if_false] at h
    have ih := ih h (fun c hc => hk c (by simp [hc]))
    simp only [Memory.insert]
    split
    · simp only [Memory.read]
    · simp only [Memory.read, ih]
      split <;> split <;> simp_all

theorem Memory.erase_keys (m : Memory) (a : Nat) : ∀ c ∈ Memory.erase m a, c.1 ≠ a := by
  simp [Memory.erase]

/-- A write changes the byte at its address and no other byte. -/
theorem Memory.read_write (m : Memory) (a b : Nat) (v : Byte) :
    Memory.read (Memory.write m a v) b = if a = b then v else Memory.read m b := by
  simp only [Memory.write]
  split
  · rename_i h
    rw [Memory.read_erase, h]
  · rw [Memory.read_insert _ _ _ _ (by simp [Memory.read_erase]) (Memory.erase_keys m a), Memory.read_erase]
    split <;> rfl

/-! ### The canonical form -/

theorem Memory.erase_wf (m : Memory) (a : Nat) (h : Memory.wf m) : Memory.wf (Memory.erase m a) := by
  induction m with
  | nil => rfl
  | cons c m ih =>
    obtain ⟨k, v⟩ := c
    simp only [Memory.wf, Bool.and_eq_true, List.all_eq_true] at h
    have ih := ih h.2
    simp only [Memory.erase] at ih ⊢
    rw [List.filter_cons]
    split
    · simp only [Memory.wf, Bool.and_eq_true, List.all_eq_true]
      exact ⟨⟨h.1.1, fun c hc => h.1.2 c (List.mem_filter.1 hc).1⟩, ih⟩
    · exact ih

theorem Memory.mem_insert (m : Memory) (a : Nat) (v : Byte) (c : Host.Cell) :
    c ∈ Memory.insert m a v ↔ c = (a, v) ∨ c ∈ m := by
  induction m with
  | nil => simp [Memory.insert]
  | cons d m ih =>
    obtain ⟨k, w⟩ := d
    simp only [Memory.insert]
    split
    · simp
    · simp only [List.mem_cons, ih]
      tauto

theorem Memory.insert_wf (m : Memory) (a : Nat) (v : Byte) (h : Memory.wf m) (hv : v ≠ Memory.unlisted)
    (hk : ∀ c ∈ m, c.1 ≠ a) : Memory.wf (Memory.insert m a v) := by
  induction m with
  | nil => simp [Memory.insert, Memory.wf, hv]
  | cons c m ih =>
    obtain ⟨k, w⟩ := c
    simp only [Memory.wf, Bool.and_eq_true, List.all_eq_true, decide_eq_true_eq] at h
    have hka : k ≠ a := hk (k, w) (by simp)
    simp only [Memory.insert]
    split
    · rename_i hlt
      simp only [Memory.wf, Bool.and_eq_true, List.all_eq_true, decide_eq_true_eq, List.mem_cons,
        forall_eq_or_imp, bne_iff_ne, ne_eq]
      exact ⟨⟨hv, hlt, fun c hc => hlt.trans (h.1.2 c hc)⟩, ⟨by simpa using h.1.1, h.1.2⟩, h.2⟩
    · rename_i hlt
      simp only [Memory.wf, Bool.and_eq_true, List.all_eq_true, decide_eq_true_eq, Memory.mem_insert]
      refine ⟨⟨h.1.1, ?_⟩, ih h.2 (fun c hc => hk c (by simp [hc]))⟩
      rintro c (rfl | hc)
      · simp only; omega
      · exact h.1.2 c hc

theorem Memory.write_wf (m : Memory) (a : Nat) (v : Byte) (h : Memory.wf m) : Memory.wf (Memory.write m a v) := by
  simp only [Memory.write]
  split
  · exact Memory.erase_wf m a h
  · exact Memory.insert_wf _ a v (Memory.erase_wf m a h) (by assumption) (Memory.erase_keys m a)

theorem Memory.write_keys (m : Memory) (a : Nat) (v : Byte) (c : Host.Cell) (h : c ∈ Memory.write m a v) :
    c.1 = a ∨ c ∈ m := by
  simp only [Memory.write] at h
  split at h
  · exact .inr (List.mem_filter.1 h).1
  · rcases (Memory.mem_insert _ _ _ _).1 h with rfl | h
    · exact .inl rfl
    · exact .inr (List.mem_filter.1 h).1

/-- The canonical form, as its parts. -/
theorem Bus.wf_iff (b : Bus) : b.wf = true ↔
    1 ≤ b.size ∧ b.size ≤ Config.addressSpace ∧ (∀ c ∈ b.mem, c.1 < b.size) ∧ Memory.wf b.mem = true := by
  simp [Bus.wf, and_assoc]

/-! ### The bus -/

@[simp] theorem Bus.size_write (b : Bus) (a : Word) (v : Byte) : (b.write a v).size = b.size := by
  simp only [Bus.write]; split <;> rfl

@[simp] theorem Bus.writable_write (b : Bus) (a : Word) (v : Byte) : (b.write a v).writable = b.writable := by
  simp only [Bus.write]; split <;> rfl

@[simp] theorem Bus.inExtent_write (b : Bus) (a a' : Word) (v : Byte) :
    (b.write a v).inExtent a' = b.inExtent a' := by simp [Bus.inExtent]

@[simp] theorem Bus.writeLands_write (b : Bus) (a a' : Word) (v : Byte) :
    (b.write a v).writeLands a' = b.writeLands a' := by simp [Bus.writeLands]

/-- R54: a write that lands changes the byte at its address; no write changes another byte. -/
theorem Bus.read_write (b : Bus) (a a' : Word) (v : Byte) :
    (b.write a v).read a' = if a = a' ∧ b.writeLands a = true then v else b.read a' := by
  by_cases h : b.writeLands a = true
  · have hin : b.inExtent a = true := by simp [Bus.writeLands] at h; exact h.2
    have e : (b.write a v).mem = Memory.write b.mem a.toNat v := by simp [Bus.write, h]
    simp only [Bus.read, Bus.inExtent_write, e, Memory.read_write, h, and_true]
    by_cases ha : a = a'
    · subst ha
      simp [hin]
    · have hn : a.toNat ≠ a'.toNat := fun hn => ha (BitVec.eq_of_toNat_eq hn)
      simp [hn, ha]
  · simp [Bus.write, h]

/-- R53: a write to read-only storage does nothing. -/
theorem Bus.write_readOnly (b : Bus) (a : Word) (v : Byte) (h : b.writable = false) : b.write a v = b := by
  simp [Bus.write, Bus.writeLands, h]

/-- R52: an address outside the extent reads as 0. -/
theorem Bus.read_outside (b : Bus) (a : Word) (h : b.size ≤ a.toNat) : b.read a = 0#8 := by
  simp [Bus.read, Bus.inExtent, Nat.not_lt.2 h]

theorem Bus.write_wf (b : Bus) (a : Word) (v : Byte) (h : b.wf = true) : (b.write a v).wf = true := by
  simp only [Bus.write]
  split
  · rename_i hl
    rw [Bus.wf_iff] at h ⊢
    have hin : a.toNat < b.size := by simp [Bus.writeLands, Bus.inExtent] at hl; exact hl.2
    refine ⟨h.1, h.2.1, fun c hc => ?_, Memory.write_wf _ _ _ h.2.2.2⟩
    rcases Memory.write_keys _ _ _ _ hc with e | hc
    · simpa [e] using hin
    · exact h.2.2.1 c hc
  · exact h

@[simp] theorem Bus.size_writeWord (b : Bus) (o : ByteOrder) (a v : Word) : (b.writeWord o a v).size = b.size := by
  cases o <;> simp [Bus.writeWord]

@[simp] theorem Bus.writable_writeWord (b : Bus) (o : ByteOrder) (a v : Word) :
    (b.writeWord o a v).writable = b.writable := by
  cases o <;> simp [Bus.writeWord]

theorem Bus.writeWord_wf (b : Bus) (o : ByteOrder) (a v : Word) (h : b.wf = true) :
    (b.writeWord o a v).wf = true := by
  cases o <;> exact Bus.write_wf _ _ _ (Bus.write_wf _ _ _ h)

theorem Bus.writeWord_readOnly (b : Bus) (o : ByteOrder) (a v : Word) (h : b.writable = false) :
    b.writeWord o a v = b := by
  cases o <;> simp [Bus.writeWord, Bus.write_readOnly, h]

/-- R56: a word write touches only the bytes at `a` and `a + 1`. -/
theorem Bus.read_writeWord_other (b : Bus) (o : ByteOrder) (a v a' : Word) (h : a' ≠ a) (h1 : a' ≠ a + 1#16) :
    (b.writeWord o a v).read a' = b.read a' := by
  have h1' : ¬(a + 1#16 = a') := fun e => h1 e.symm
  cases o <;> simp only [Bus.writeWord, Bus.read_write, h.symm, h1', false_and, if_false]

/-- R56, R57: the little-endian word write, byte by byte. -/
theorem Bus.read_writeWord_little (b : Bus) (a v a' : Word) :
    (b.writeWord .little a v).read a' =
      if a + 1#16 = a' ∧ b.writeLands (a + 1#16) = true then highByte v
      else if a = a' ∧ b.writeLands a = true then lowByte v else b.read a' := by
  simp [Bus.writeWord, Bus.read_write]

/-! ### The host's loads -/

theorem Bus.load_wf (b : Bus) (a : Word) (v : Byte) (h : b.wf = true) : (b.load a v).wf = true := by
  rw [Bus.wf_iff] at h ⊢
  have ha := a.isLt
  refine ⟨?_, ?_, fun c hc => ?_, Memory.write_wf _ _ _ h.2.2.2⟩
  · simp [Bus.load]
  · simp only [Bus.load, Config.addressSpace] at *; omega
  · rcases Memory.write_keys _ _ _ _ hc with e | hc
    · simp [Bus.load, e]
    · have := h.2.2.1 c hc
      simp only [Bus.load]; omega

theorem Bus.atReset_wf : Bus.atReset.wf = true := by decide

end Sys2Proof.Machine
end

