-- ==== Sys2Proof/Laws/Registers.lean ====
section
/-! SUPPORT. What the register-pair and stack operations do (spec/10_state.md R24, R25, R27). -/

namespace Sys2Proof.Machine

/-! ### Words and their bytes -/

@[simp] theorem lowByte_wordOf (hi lo : Byte) : lowByte (wordOf hi lo) = lo := by
  simp only [lowByte, wordOf]
  ext i hi
  simp only [BitVec.getElem_extractLsb', BitVec.getLsbD_append]
  simp_all

@[simp] theorem highByte_wordOf (hi lo : Byte) : highByte (wordOf hi lo) = hi := by
  simp only [highByte, wordOf]
  ext i hi
  simp only [BitVec.getElem_extractLsb', BitVec.getLsbD_append]
  simp_all

@[simp] theorem wordOf_bytes (v : Word) : wordOf (highByte v) (lowByte v) = v := by
  simp only [highByte, lowByte, wordOf]
  ext i hi
  simp only [BitVec.getElem_append, BitVec.getElem_extractLsb']
  split <;> simp_all

/-! ### Pairs -/

@[simp] theorem pairIndex_pairIndex (i : RegIdx) : pairIndex (pairIndex i) = pairIndex i := by
  revert i; decide

@[simp] theorem pairIndex_succ (i : RegIdx) : pairIndex (pairIndex i + 1#4) = pairIndex i := by
  revert i; decide

theorem pairIndex_ne_succ (i j : RegIdx) : pairIndex i ≠ pairIndex j + 1#4 := by
  revert i j; decide

/-- An index is the even or the odd index of its own pair. -/
theorem index_eq_pairIndex_or_succ (i : RegIdx) : i = pairIndex i ∨ i = pairIndex i + 1#4 := by
  revert i; decide

/-- R24: a write to a pair changes the two registers of the pair and no other. -/
theorem State.reg_setPair (s : State) (i j : RegIdx) (v : Word) :
    (s.setPair i v).reg j =
      if j = pairIndex i then lowByte v else if j = pairIndex i + 1#4 then highByte v else s.reg j := by
  have h := pairIndex_ne_succ i i
  simp only [State.setPair, State.reg_setReg]
  by_cases h0 : j = pairIndex i
  · subst h0; simp [h.symm]
  · by_cases h1 : j = pairIndex i + 1#4
    · subst h1; simp [h.symm]
    · simp [h0, h1, Ne.symm h0, Ne.symm h1]

@[simp] theorem State.bus_setPair (s : State) (i : RegIdx) (v : Word) : (s.setPair i v).bus = s.bus := rfl

/-- R24: reading a pair after a write to a pair. -/
theorem State.pair_setPair (s : State) (i j : RegIdx) (v : Word) :
    (s.setPair i v).pair j = if pairIndex j = pairIndex i then v else s.pair j := by
  simp only [State.pair, State.reg_setPair]
  have h := pairIndex_ne_succ j i
  have h' := pairIndex_ne_succ i j
  by_cases e : pairIndex j = pairIndex i
  · simp [e, (pairIndex_ne_succ i i).symm]
  · have e' : ¬pairIndex j + 1#4 = pairIndex i + 1#4 := fun c => e (by simpa using c)
    simp [e, e', h, h'.symm]

@[simp] theorem State.reg_addPair (s : State) (i j : RegIdx) (n : Word) :
    (s.addPair i n).reg j = (s.setPair i (s.pair i + n)).reg j := rfl

@[simp] theorem State.reg_subPair (s : State) (i j : RegIdx) (n : Word) :
    (s.subPair i n).reg j = (s.setPair i (s.pair i - n)).reg j := rfl

@[simp] theorem State.bus_addPair (s : State) (i : RegIdx) (n : Word) : (s.addPair i n).bus = s.bus := rfl

@[simp] theorem State.bus_subPair (s : State) (i : RegIdx) (n : Word) : (s.subPair i n).bus = s.bus := rfl

/-- A write to a register outside a pair leaves the pair. -/
theorem State.pair_setReg_other (s : State) (i j : RegIdx) (v : Byte) (h : pairIndex i ≠ pairIndex j) :
    (s.setReg i v).pair j = s.pair j := by
  have h0 : i ≠ pairIndex j := fun e => h (by simp [e])
  have h1 : i ≠ pairIndex j + 1#4 := fun e => h (by simp [e])
  simp [State.pair, h0, h1]

@[simp] theorem State.pair_writeByte (s : State) (a : Word) (v : Byte) (i : RegIdx) :
    (s.writeByte a v).pair i = s.pair i := rfl

@[simp] theorem State.pair_writeWord (s : State) (a v : Word) (i : RegIdx) :
    (s.writeWord a v).pair i = s.pair i := rfl

/-! ### The stack -/

/-- R144: what pushing a byte does. -/
theorem State.pushByte_spec (s : State) (v : Byte) :
    (s.pushByte v).bus = s.bus.write s.sp v ∧
      ∀ i, (s.pushByte v).reg i = (s.setPair spIndex (s.sp + 1#16)).reg i :=
  ⟨rfl, fun _ => rfl⟩

/-- R140: what pushing a word does. -/
theorem State.pushWord_spec (s : State) (v : Word) :
    (s.pushWord v).bus = s.bus.writeWord stackWordOrder s.sp v ∧
      ∀ i, (s.pushWord v).reg i = (s.setPair spIndex (s.sp + 2#16)).reg i :=
  ⟨rfl, fun _ => rfl⟩

/-- R145: what dropping a byte does. -/
theorem State.dropByte_spec (s : State) :
    s.dropByte.bus = s.bus ∧ ∀ i, s.dropByte.reg i = (s.setPair spIndex (s.sp - 1#16)).reg i :=
  ⟨rfl, fun _ => rfl⟩

/-- R141: what dropping a word does. -/
theorem State.dropWord_spec (s : State) :
    s.dropWord.bus = s.bus ∧ ∀ i, s.dropWord.reg i = (s.setPair spIndex (s.sp - 2#16)).reg i :=
  ⟨rfl, fun _ => rfl⟩

end Sys2Proof.Machine
end

