-- ==== Sys2Proof/Laws/Flags.lean ====
section
/-! SUPPORT. What the flag operations and the flag updaters do (spec/10_state.md R28 to R31). -/

namespace Sys2Proof.Machine

@[simp] theorem State.flags_setReg (s : State) (i : RegIdx) (v : Byte) :
    (s.setReg i v).flags = if i = flagIndex then v else s.flags := by simp [State.flags]

/-- A flag of the state is its bit of the flag byte. -/
theorem State.flag_setReg (s : State) (i : RegIdx) (v : Byte) (f : Flag) :
    (s.setReg i v).flag f = if i = flagIndex then v.getLsbD f.bit else s.flag f := by
  simp only [State.flag, State.flags_setReg]; split <;> rfl

theorem Flag.bit_lt (f : Flag) : f.bit < 8 := by cases f <;> decide

theorem Flag.bit_inj (f g : Flag) (h : f.bit = g.bit) : f = g := by
  cases f <;> cases g <;> first | rfl | exact absurd h (by decide)

/-- R28: a mask has the bit of its flag and no other. -/
theorem Flag.getLsbD_mask (f g : Flag) : f.mask.getLsbD g.bit = decide (f = g) := by
  revert f g
  intro f g
  cases f <;> cases g <;> decide

@[simp] theorem State.reg_setMask (s : State) (m : Byte) (i : RegIdx) :
    (s.setMask m).reg i = if i = flagIndex then s.flags ||| m else s.reg i := by
  simp [State.setMask, eq_comm]

@[simp] theorem State.reg_clearMask (s : State) (m : Byte) (i : RegIdx) :
    (s.clearMask m).reg i = if i = flagIndex then s.flags &&& ~~~m else s.reg i := by
  simp [State.clearMask, eq_comm]

@[simp] theorem State.bus_setMask (s : State) (m : Byte) : (s.setMask m).bus = s.bus := rfl

@[simp] theorem State.bus_clearMask (s : State) (m : Byte) : (s.clearMask m).bus = s.bus := rfl

@[simp] theorem State.bus_setFlag (s : State) (f : Flag) (b : Bool) : (s.setFlag f b).bus = s.bus := by
  cases b <;> rfl

theorem State.flag_setMask (s : State) (m : Byte) (g : Flag) :
    (s.setMask m).flag g = (s.flag g || m.getLsbD g.bit) := by
  simp [State.flag, State.flags]

theorem State.flag_clearMask (s : State) (m : Byte) (g : Flag) :
    (s.clearMask m).flag g = (s.flag g && !m.getLsbD g.bit) := by
  simp [State.flag, State.flags, g.bit_lt]

/-- R29: a flag write changes that flag. -/
@[simp] theorem State.flag_setFlag (s : State) (f g : Flag) (b : Bool) :
    (s.setFlag f b).flag g = if f = g then b else s.flag g := by
  cases b
  · simp only [State.setFlag, Bool.false_eq_true, if_false, State.flag_clearMask, Flag.getLsbD_mask]
    by_cases h : f = g <;> simp [h]
  · simp only [State.setFlag, if_true, State.flag_setMask, Flag.getLsbD_mask]
    by_cases h : f = g <;> simp [h]

/-- R29: a flag write changes no other register. -/
theorem State.reg_setFlag_other (s : State) (f : Flag) (b : Bool) (i : RegIdx) (h : i ≠ flagIndex) :
    (s.setFlag f b).reg i = s.reg i := by
  cases b <;> simp [State.setFlag, h]

/-- R31: all that the logic-flags update does. -/
theorem State.logicFlags_spec (s : State) (v : Byte) :
    (s.logicFlags v).bus = s.bus ∧ (∀ i, i ≠ flagIndex → (s.logicFlags v).reg i = s.reg i) ∧
      ∀ g, (s.logicFlags v).flag g =
        if g = .neg then v.getLsbD 7 else if g = .zero then v == 0#8 else s.flag g := by
  refine ⟨by simp [State.logicFlags], fun i h => by simp [State.logicFlags, State.reg_setFlag_other, h], fun g => ?_⟩
  cases g <;> simp [State.logicFlags]

/-- R30: all that the arithmetic-flags update does. -/
theorem State.arithFlags_spec (s : State) (t : Nat) :
    (s.arithFlags t).bus = s.bus ∧ (∀ i, i ≠ flagIndex → (s.arithFlags t).reg i = s.reg i) ∧
      ∀ g, (s.arithFlags t).flag g =
        if g = .neg then (BitVec.ofNat 8 t).getLsbD 7
        else if g = .zero then BitVec.ofNat 8 t == 0#8
        else if g = .carry then decide (t > 255) else s.flag g := by
  refine ⟨by simp [State.arithFlags], fun i h => by simp [State.arithFlags, State.reg_setFlag_other, h], fun g => ?_⟩
  cases g <;> simp [State.arithFlags]

/-- R121: all that the comparison does to GT, EQ and LT. -/
theorem State.compareFlags_spec (s : State) (a b : Byte) :
    (s.compareFlags a b).bus = s.bus ∧ (∀ i, i ≠ flagIndex → (s.compareFlags a b).reg i = s.reg i) ∧
      ∀ g, (s.compareFlags a b).flag g =
        if g = .gt then decide (b < a) else if g = .eq then a == b
        else if g = .lt then decide (a < b) else s.flag g := by
  refine ⟨by simp [State.compareFlags], fun i h => by simp [State.compareFlags, State.reg_setFlag_other, h], fun g => ?_⟩
  cases g <;> simp [State.compareFlags]

/-- Two flag bytes with the same eight flags are equal: every bit has a name (R28). -/
theorem State.flags_ext {s t : State} (h : ∀ g, s.flag g = t.flag g) : s.flags = t.flags := by
  have h' : ∀ n, n < 8 → s.flags.getLsbD n = t.flags.getLsbD n := by
    intro n hn
    have := h .cond; have := h .halt; have := h .gt; have := h .eq
    have := h .lt; have := h .neg; have := h .zero; have := h .carry
    simp only [State.flag, Flag.bit] at *
    interval_cases n <;> assumption
  ext i hi
  simpa [← BitVec.getLsbD_eq_getElem] using h' i hi

/-- The logic result: the destination register takes it, then NEG and ZERO are rewritten. -/
theorem State.writeLogic_spec (s : State) (v : Byte) :
    (s.writeLogic v).bus = s.bus ∧
      (∀ i, i ≠ flagIndex → (s.writeLogic v).reg i = if i = s.dest then v else s.reg i) ∧
      ∀ g, (s.writeLogic v).flag g =
        if g = .neg then v.getLsbD 7 else if g = .zero then v == 0#8
        else if s.dest = flagIndex then v.getLsbD g.bit else s.flag g := by
  obtain ⟨hb, hr, hf⟩ := (s.setReg s.dest v).logicFlags_spec v
  refine ⟨hb, fun i h => ?_, fun g => ?_⟩
  · rw [State.writeLogic, hr i h, State.reg_setReg]; simp only [eq_comm]
  · rw [State.writeLogic, hf g, State.flag_setReg]

/-- The arithmetic result: the destination register takes its low byte, then NEG, ZERO and CARRY are rewritten. -/
theorem State.writeArith_spec (s : State) (t : Nat) :
    (s.writeArith t).bus = s.bus ∧
      (∀ i, i ≠ flagIndex → (s.writeArith t).reg i = if i = s.dest then BitVec.ofNat 8 t else s.reg i) ∧
      ∀ g, (s.writeArith t).flag g =
        if g = .neg then (BitVec.ofNat 8 t).getLsbD 7 else if g = .zero then BitVec.ofNat 8 t == 0#8
        else if g = .carry then decide (t > 255)
        else if s.dest = flagIndex then (BitVec.ofNat 8 t).getLsbD g.bit else s.flag g := by
  obtain ⟨hb, hr, hf⟩ := (s.setReg s.dest (BitVec.ofNat 8 t)).arithFlags_spec t
  refine ⟨hb, fun i h => ?_, fun g => ?_⟩
  · rw [State.writeArith, hr i h, State.reg_setReg]; simp only [eq_comm]
  · rw [State.writeArith, hf g, State.flag_setReg]

end Sys2Proof.Machine
end

