-- ==== Sys2Proof/Laws/Fetch.lean ====
section
/-! SUPPORT. What the fetch does (spec/40_step_cycle.md R102 to R104), and what an instruction does around its
handler (R105 to R107). -/

namespace Sys2Proof.Machine

@[simp] theorem State.bus_loadScratch (s : State) (rs : List RegIdx) (bs : List Byte) :
    (s.loadScratch rs bs).bus = s.bus := by
  induction rs generalizing s bs with
  | nil => cases bs <;> rfl
  | cons r rs ih =>
    cases bs with
    | nil => rfl
    | cons b bs => rw [State.loadScratch, ih]; rfl

/-- The fetch changes no bus byte. -/
@[simp] theorem State.bus_fetched (s : State) (ops : List Byte) : (s.fetched ops).bus = s.bus := by
  rw [State.fetched, State.bus_loadScratch]; rfl

theorem State.reg_advancePc (s : State) (i : RegIdx) (h : pairIndex i ≠ pcIndex) :
    s.advancePc.reg i = s.reg i := by
  have h0 : i ≠ 0#4 := fun e => h (by subst e; decide)
  have h1 : i ≠ 1#4 := fun e => h (by subst e; decide)
  have e0 : pairIndex pcIndex = 0#4 := by decide
  simp [State.advancePc, State.reg_setPair, e0, h0, h1]

theorem State.pc_advancePc (s : State) : s.advancePc.pc = s.pc + 1#16 := by
  simp [State.pc, State.advancePc, State.addPair, State.pair_setPair]

theorem State.pc_setReg (s : State) (i : RegIdx) (v : Byte) (h : pairIndex i ≠ pcIndex) :
    (s.setReg i v).pc = s.pc :=
  State.pair_setReg_other s i pcIndex v (by simpa [show pairIndex pcIndex = pcIndex by decide] using h)

/-- One operand byte: its register takes it, and `pc` moves past it. -/
theorem State.load_one (s : State) (r : RegIdx) (b : Byte) (h : pairIndex r ≠ pcIndex) :
    ((s.setReg r b).advancePc).pc = s.pc + 1#16 ∧
      ∀ i, pairIndex i ≠ pcIndex → ((s.setReg r b).advancePc).reg i = if r = i then b else s.reg i := by
  refine ⟨by rw [State.pc_advancePc, State.pc_setReg s r b h], fun i hi => ?_⟩
  rw [State.reg_advancePc _ i hi, State.reg_setReg]

/-- R104: operand byte `k` into its scratch register, the rest unchanged, `pc` moved past the bytes. -/
theorem State.loadScratch_spec (s : State) (rs : List RegIdx) (bs : List Byte)
    (hr : ∀ r ∈ rs, pairIndex r ≠ pcIndex) (hn : rs.Nodup) :
    (s.loadScratch rs bs).pc = s.pc + BitVec.ofNat 16 (min rs.length bs.length) ∧
      ∀ i, pairIndex i ≠ pcIndex → (s.loadScratch rs bs).reg i =
        if i ∈ rs then bs.getD (rs.idxOf i) (s.reg i) else s.reg i := by
  induction rs generalizing s bs with
  | nil => cases bs <;> simp [State.loadScratch]
  | cons r rs ih =>
    cases bs with
    | nil => simp [State.loadScratch]
    | cons b bs =>
      obtain ⟨hpc, hreg⟩ := s.load_one r b (hr r (by simp))
      obtain ⟨ipc, ireg⟩ := ih ((s.setReg r b).advancePc) bs (fun x hx => hr x (by simp [hx]))
        (List.nodup_cons.1 hn).2
      refine ⟨?_, fun i hi => ?_⟩
      · rw [State.loadScratch, ipc, hpc]
        simp only [List.length_cons, Nat.add_min_add_right, BitVec.ofNat_add, BitVec.add_assoc]
        rw [BitVec.add_comm (1#16)]
      · rw [State.loadScratch, ireg i hi, hreg i hi]
        by_cases e : r = i
        · subst e
          simp [(List.nodup_cons.1 hn).1]
        · simp [e, Ne.symm e, List.idxOf_cons_ne]

/-- R102 and R104: all that the fetch of an instruction does. `pc` moves past the opcode and up to three operand
bytes; A0 to A2 take the operand bytes there are; every other register but `pc`, and the bus, is unchanged. -/
theorem State.fetched_spec (s : State) (ops : List Byte) :
    (s.fetched ops).bus = s.bus ∧
      (s.fetched ops).pc = s.pc + BitVec.ofNat 16 (1 + min 3 ops.length) ∧
      (s.fetched ops).reg a0Index = ops.getD 0 (s.reg a0Index) ∧
      (s.fetched ops).reg a1Index = ops.getD 1 (s.reg a1Index) ∧
      (s.fetched ops).reg a2Index = ops.getD 2 (s.reg a2Index) ∧
      ∀ i, pairIndex i ≠ pcIndex → i ≠ a0Index → i ≠ a1Index → i ≠ a2Index →
        (s.fetched ops).reg i = s.reg i := by
  obtain ⟨hpc, hreg⟩ := s.advancePc.loadScratch_spec [a0Index, a1Index, a2Index] ops (by decide) (by decide)
  refine ⟨s.bus_fetched ops, ?_, ?_, ?_, ?_, fun i hi h0 h1 h2 => ?_⟩
  · rw [State.fetched, hpc, State.pc_advancePc, BitVec.add_assoc]
    congr 1
    simp [BitVec.ofNat_add]
  · rw [State.fetched, hreg _ (by decide), State.reg_advancePc _ _ (by decide)]; rfl
  · rw [State.fetched, hreg _ (by decide), State.reg_advancePc _ _ (by decide)]; rfl
  · rw [State.fetched, hreg _ (by decide), State.reg_advancePc _ _ (by decide)]; rfl
  · rw [State.fetched, hreg i hi, State.reg_advancePc _ _ hi]
    simp [h0, h1, h2]

/-- The fetch leaves the flag byte (R105). -/
@[simp] theorem State.flags_fetched (s : State) (ops : List Byte) : (s.fetched ops).flags = s.flags :=
  (s.fetched_spec ops).2.2.2.2.2 flagIndex (by decide) (by decide) (by decide) (by decide)

@[simp] theorem State.flag_fetched (s : State) (ops : List Byte) (f : Flag) :
    (s.fetched ops).flag f = s.flag f := by simp [State.flag]

@[simp] theorem State.runs_fetched (s : State) (ops : List Byte) (p : Bool) :
    (s.fetched ops).runs p = s.runs p := by simp [State.runs]

/-- The fetch leaves the stack pointer. -/
@[simp] theorem State.sp_fetched (s : State) (ops : List Byte) : (s.fetched ops).sp = s.sp := by
  have h := (s.fetched_spec ops).2.2.2.2.2
  simp only [State.sp, State.pair]
  rw [h _ (by decide) (by decide) (by decide) (by decide), h _ (by decide) (by decide) (by decide) (by decide)]

@[simp] theorem State.readByte_fetched (s : State) (ops : List Byte) (a : Word) :
    (s.fetched ops).readByte a = s.readByte a := by simp [State.readByte]

/-- What an instruction whose predicate test passes does: its fetch, then its handler. -/
theorem State.execute_runs (s : State) (p : Bool) (ops : List Byte) (h : State → State) (hr : s.runs p = true) :
    s.execute p ops h = .next (h (s.fetched ops)) := by simp [State.execute, hr]

/-- What an instruction whose predicate test fails does: its fetch (R107). -/
theorem State.execute_skipped (s : State) (p : Bool) (ops : List Byte) (h : State → State)
    (hr : s.runs p = false) : s.execute p ops h = .next (s.fetched ops) := by simp [State.execute, hr]

/-- The two cases of an executed instruction. -/
theorem State.execute_cases {s t : State} {p : Bool} {ops : List Byte} {h : State → State}
    (e : s.execute p ops h = .next t) :
    (s.runs p = true ∧ t = h (s.fetched ops)) ∨ (s.runs p = false ∧ t = s.fetched ops) := by
  cases hr : s.runs p
  · rw [State.execute_skipped s p ops h hr] at e
    exact .inr ⟨rfl, (Host.Outcome.next.inj e).symm⟩
  · rw [State.execute_runs s p ops h hr] at e
    exact .inl ⟨rfl, (Host.Outcome.next.inj e).symm⟩

end Sys2Proof.Machine
end

