-- ==== Sys2Proof/Laws/PerInstr.lean ====
section
/-! SUPPORT. Facts said once for each instruction, for the statements about all of them. -/

/-- R88: the selector of an instruction, with its predicated bit and operand bytes, names that instruction. -/
def Sys2Proof.Laws.SelectorRow.Statement (i : Sys2Proof.Instr) : Prop :=
  Sys2Proof.instrOfSelector i.selector i.predicated i.operands = i

namespace Sys2Proof.Laws.SelectorRow

theorem nop (p : Bool) (operands : List Byte) : Statement (.nop p operands) := rfl

theorem cmp (p : Bool) (operands : List Byte) : Statement (.cmp p operands) := rfl

theorem any (p : Bool) (operands : List Byte) : Statement (.any p operands) := rfl

theorem all (p : Bool) (operands : List Byte) : Statement (.all p operands) := rfl

theorem swap (p : Bool) (operands : List Byte) : Statement (.swap p operands) := rfl

theorem rev (p : Bool) (operands : List Byte) : Statement (.rev p operands) := rfl

theorem zeros (p : Bool) (operands : List Byte) : Statement (.zeros p operands) := rfl

theorem ones (p : Bool) (operands : List Byte) : Statement (.ones p operands) := rfl

theorem mov (p : Bool) (operands : List Byte) : Statement (.mov p operands) := rfl

theorem mov16 (p : Bool) (operands : List Byte) : Statement (.mov16 p operands) := rfl

theorem call (p : Bool) (operands : List Byte) : Statement (.call p operands) := rfl

theorem ret (p : Bool) (operands : List Byte) : Statement (.ret p operands) := rfl

theorem load (p : Bool) (operands : List Byte) : Statement (.load p operands) := rfl

theorem store (p : Bool) (operands : List Byte) : Statement (.store p operands) := rfl

theorem push (p : Bool) (operands : List Byte) : Statement (.push p operands) := rfl

theorem pop (p : Bool) (operands : List Byte) : Statement (.pop p operands) := rfl

theorem and (p : Bool) (operands : List Byte) : Statement (.and p operands) := rfl

theorem or (p : Bool) (operands : List Byte) : Statement (.or p operands) := rfl

theorem xor (p : Bool) (operands : List Byte) : Statement (.xor p operands) := rfl

theorem not (p : Bool) (operands : List Byte) : Statement (.not p operands) := rfl

theorem add (p : Bool) (operands : List Byte) : Statement (.add p operands) := rfl

theorem sub (p : Bool) (operands : List Byte) : Statement (.sub p operands) := rfl

theorem rsub (p : Bool) (operands : List Byte) : Statement (.rsub p operands) := rfl

theorem neg (p : Bool) (operands : List Byte) : Statement (.neg p operands) := rfl

theorem shl (p : Bool) (operands : List Byte) : Statement (.shl p operands) := rfl

theorem shr (p : Bool) (operands : List Byte) : Statement (.shr p operands) := rfl

theorem shlimm (p : Bool) (operands : List Byte) : Statement (.shlimm p operands) := rfl

theorem shrimm (p : Bool) (operands : List Byte) : Statement (.shrimm p operands) := rfl

theorem inc (p : Bool) (operands : List Byte) : Statement (.inc p operands) := rfl

theorem dec (p : Bool) (operands : List Byte) : Statement (.dec p operands) := rfl

theorem set (p : Bool) (operands : List Byte) : Statement (.set p operands) := rfl

theorem clear (p : Bool) (operands : List Byte) : Statement (.clear p operands) := rfl

end Sys2Proof.Laws.SelectorRow
end

