-- ==== Sys2Proof/Tests/Slice0.lean ====
section
/-! SUPPORT. The model's own tests. Expected values are those of spec/95_test_vectors.md (the vector is named beside each
test) or of the worked example of the rule named; encodings are those of spec/30_encoding.md R80 and R88. -/

namespace Sys2Proof.Tests

open Sys2Proof.Machine

/-! ### Helpers -/

/-- The state after reset with `pc` moved, some registers set and bytes placed at `pc`. -/
def start (pc : Word) (regs : List (RegIdx × Byte)) (bytes : List Byte) : State :=
  ((regs.foldl (fun s r => s.setReg r.1 r.2) State.reset).setPair pcIndex pc).loadBytes pc bytes

/-- Another bus form around the bytes of a state. -/
def State.onBus (s : State) (size : Nat) (writable : Bool) : State :=
  s.setBus { s.bus with size := size, writable := writable }

/-- Whether the step from a state answers a next state that passes a check. -/
def after (s : State) (check : State → Bool) : Bool :=
  match step s with
  | .next t => check t
  | _ => false

/-- The next state an instruction answers, or the given state where there is none. -/
def nextOf (i : Instr) (s : State) : State :=
  match exec i s with
  | .next t => t
  | _ => s

/-! ### WellFormed: the one check, an instruction that passes and one it refuses (R81) -/

theorem test_wellformed_three_operands : (Instr.nop false [1#8, 2#8, 3#8]).WellFormed = true := by decide

theorem test_wellformed_refuses_four_operands : (Instr.nop false [1#8, 2#8, 3#8, 4#8]).WellFormed = false := by decide

/-! ### Decoding: one word of every instruction, its opcode byte from the table of R88 -/

theorem test_decode_nop : decode ([0x00#8]) = .ok (.nop false [], []) := rfl

theorem test_decode_cmp : decode ([0x41#8, 0x89#8]) = .ok (.cmp false [0x89#8], []) := rfl

theorem test_decode_any : decode ([0x42#8, 0x89#8]) = .ok (.any false [0x89#8], []) := rfl

theorem test_decode_all : decode ([0x43#8, 0x89#8]) = .ok (.all false [0x89#8], []) := rfl

theorem test_decode_swap : decode ([0x44#8, 0x89#8]) = .ok (.swap false [0x89#8], []) := rfl

theorem test_decode_rev : decode ([0x45#8, 0x89#8]) = .ok (.rev false [0x89#8], []) := rfl

theorem test_decode_zeros : decode ([0x46#8, 0x89#8]) = .ok (.zeros false [0x89#8], []) := rfl

theorem test_decode_ones : decode ([0x47#8, 0x89#8]) = .ok (.ones false [0x89#8], []) := rfl

theorem test_decode_mov : decode ([0x48#8, 0x89#8]) = .ok (.mov false [0x89#8], []) := rfl

theorem test_decode_mov16 : decode ([0x49#8, 0x89#8]) = .ok (.mov16 false [0x89#8], []) := rfl

theorem test_decode_call : decode ([0x4A#8, 0x89#8]) = .ok (.call false [0x89#8], []) := rfl

theorem test_decode_ret : decode ([0x4B#8, 0x89#8]) = .ok (.ret false [0x89#8], []) := rfl

theorem test_decode_load : decode ([0x4C#8, 0x89#8]) = .ok (.load false [0x89#8], []) := rfl

theorem test_decode_store : decode ([0x4D#8, 0x89#8]) = .ok (.store false [0x89#8], []) := rfl

theorem test_decode_push : decode ([0x4E#8, 0x89#8]) = .ok (.push false [0x89#8], []) := rfl

theorem test_decode_pop : decode ([0x4F#8, 0x89#8]) = .ok (.pop false [0x89#8], []) := rfl

theorem test_decode_and : decode ([0x50#8, 0x89#8]) = .ok (.and false [0x89#8], []) := rfl

theorem test_decode_or : decode ([0x51#8, 0x89#8]) = .ok (.or false [0x89#8], []) := rfl

theorem test_decode_xor : decode ([0x52#8, 0x89#8]) = .ok (.xor false [0x89#8], []) := rfl

theorem test_decode_not : decode ([0x53#8, 0x89#8]) = .ok (.not false [0x89#8], []) := rfl

theorem test_decode_add : decode ([0x54#8, 0x89#8]) = .ok (.add false [0x89#8], []) := rfl

theorem test_decode_sub : decode ([0x55#8, 0x89#8]) = .ok (.sub false [0x89#8], []) := rfl

theorem test_decode_rsub : decode ([0x56#8, 0x89#8]) = .ok (.rsub false [0x89#8], []) := rfl

theorem test_decode_neg : decode ([0x57#8, 0x89#8]) = .ok (.neg false [0x89#8], []) := rfl

theorem test_decode_shl : decode ([0x58#8, 0x89#8]) = .ok (.shl false [0x89#8], []) := rfl

theorem test_decode_shr : decode ([0x59#8, 0x89#8]) = .ok (.shr false [0x89#8], []) := rfl

theorem test_decode_shlimm : decode ([0x5A#8, 0x89#8]) = .ok (.shlimm false [0x89#8], []) := rfl

theorem test_decode_shrimm : decode ([0x5B#8, 0x89#8]) = .ok (.shrimm false [0x89#8], []) := rfl

theorem test_decode_inc : decode ([0x5C#8, 0x89#8]) = .ok (.inc false [0x89#8], []) := rfl

theorem test_decode_dec : decode ([0x5D#8, 0x89#8]) = .ok (.dec false [0x89#8], []) := rfl

theorem test_decode_set : decode ([0x5E#8, 0x89#8]) = .ok (.set false [0x89#8], []) := rfl

theorem test_decode_clear : decode ([0x5F#8, 0x89#8]) = .ok (.clear false [0x89#8], []) := rfl

theorem test_decode_predicated_three_operands : decode [0xE9#8, 0x06#8, 0x09#8, 0x00#8, 0x55#8] = .ok (.mov16 true [0x06#8, 0x09#8, 0x00#8], [0x55#8]) := rfl

theorem test_decode_empty_refused : decode [] = .error .noOpcode := rfl

theorem test_decode_truncated_refused : decode [0xC9#8, 0x06#8, 0x09#8] = .error .missingOperands := rfl

theorem test_encode_jump : encode (.mov16 true [0x06#8, 0x34#8, 0x12#8]) = [0xE9#8, 0x06#8, 0x34#8, 0x12#8] := by decide

theorem test_decodeTableWord : decodeTableWord 8 0x5E = some (.set false [0x00#8]) := by decide

theorem test_withFetchWord : after (State.reset.withFetchWord 16 0x405E) (fun t => t.halted && t.pc == 2#16) = true := by decide

theorem test_withFetchWord_from_halted : after ((start 0xFFFF#16 [(4#4, 0x40#8), (15#4, 0x77#8)] []).withFetchWord 16 0x8F48)
    (fun t => t.reg 8#4 == 0x77#8 && t.pc == 1#16) = true := by decide

/-! ### One step at a time -/

/-- V-STEP-1. -/
theorem test_step_idle_when_halted : after (start 0x0100#16 [(4#4, 0x40#8), (8#4, 0x01#8), (9#4, 0x02#8)] [0x54#8, 0x89#8])
    (fun t => t == (start 0x0100#16 [(4#4, 0x40#8), (8#4, 0x01#8), (9#4, 0x02#8)] [0x54#8, 0x89#8])) = true := by decide

/-- V-STEP-9. -/
theorem test_step_skips_predicated : after (start 0x0100#16 [(8#4, 0x01#8), (9#4, 0x02#8)] [0xF4#8, 0x89#8, 0xAA#8, 0xBB#8])
    (fun t => t.pc == 0x0104#16 && t.reg 5#4 == 0x89#8 && t.reg 6#4 == 0xAA#8 && t.reg 7#4 == 0xBB#8 && t.reg 8#4 == 0x01#8) = true := by decide

/-- V-STEP-4. -/
theorem test_step_fetch_wraps : after (start 0xFFFF#16 [(9#4, 0x33#8)] [0x48#8, 0x89#8])
    (fun t => t.pc == 0x0001#16 && t.reg 8#4 == 0x33#8 && t.reg 5#4 == 0x89#8) = true := by decide

/-- V-STEP-5. -/
theorem test_step_stale_a0 : after (start 0x0100#16 [(5#4, 0x89#8), (8#4, 0x01#8), (9#4, 0x02#8)] [0x14#8])
    (fun t => t.pc == 0x0101#16 && t.reg 8#4 == 0x03#8) = true := by decide

/-- V-STEP-7. -/
theorem test_step_outside_extent : after (State.onBus (start 0x0100#16 [] []) 256 true)
    (fun t => t.pc == 0x0101#16) = true := by decide

/-- V-STEP-6. -/
theorem test_nop_loads_scratch : after (start 0x0100#16 [] [0xC0#8, 0x11#8, 0x22#8, 0x33#8])
    (fun t => t.pc == 0x0104#16 && t.reg 5#4 == 0x11#8 && t.reg 6#4 == 0x22#8 && t.reg 7#4 == 0x33#8) = true := by decide

/-- V-CMP-3. -/
theorem test_cmp_replaces_flags : after (start 0x0100#16 [(4#4, 0x38#8), (8#4, 0x01#8), (9#4, 0x02#8)] [0x41#8, 0x89#8])
    (fun t => t.flags == 0x08#8 && t.pc == 0x0102#16) = true := by decide

/-- V-CMP-6. -/
theorem test_cmp_flag_byte_itself : after (start 0x0100#16 [(4#4, 0x01#8), (9#4, 0x01#8)] [0x41#8, 0x49#8])
    (fun t => t.flags == 0x11#8) = true := by decide

/-- V-ANY-1. -/
theorem test_any_mask_zero_clears : after (start 0x0100#16 [(4#4, 0x87#8)] [0x42#8, 0x00#8])
    (fun t => t.flags == 0x07#8) = true := by decide

/-- V-ANY-3. -/
theorem test_any_reads_flag : after (start 0x0100#16 [(4#4, 0x10#8)] [0x42#8, 0x18#8])
    (fun t => t.flags == 0x90#8) = true := by decide

/-- V-ALL-1. -/
theorem test_all_mask_zero_sets : after (start 0x0100#16 [] [0x43#8, 0x00#8])
    (fun t => t.flags == 0x80#8) = true := by decide

/-- V-ALL-3. -/
theorem test_all_missing_flag : after (start 0x0100#16 [(4#4, 0x81#8)] [0x43#8, 0x03#8])
    (fun t => t.flags == 0x01#8) = true := by decide

/-- V-BIT-2. -/
theorem test_swap_flag_byte : after (start 0x0100#16 [(4#4, 0x05#8), (9#4, 0x80#8)] [0x44#8, 0x49#8])
    (fun t => t.flags == 0x80#8 && t.reg 9#4 == 0x05#8) = true := by decide

/-- V-BIT-1. -/
theorem test_swap_itself : after (start 0x0100#16 [(8#4, 0x12#8)] [0x44#8, 0x88#8])
    (fun t => t.reg 8#4 == 0x12#8) = true := by decide

/-- V-BIT-4. -/
theorem test_rev_in_place : after (start 0x0100#16 [(8#4, 0xF0#8)] [0x45#8, 0x88#8])
    (fun t => t.reg 8#4 == 0x0F#8) = true := by decide

/-- R131, example. -/
theorem test_rev_example : after (start 0x0100#16 [(9#4, 0xB4#8)] [0x45#8, 0x89#8])
    (fun t => t.reg 8#4 == 0x2D#8) = true := by decide

/-- V-BIT-5. -/
theorem test_zeros_of_zero : after (start 0x0100#16 [] [0x46#8, 0x89#8])
    (fun t => t.reg 8#4 == 0x08#8) = true := by decide

/-- R132, example. -/
theorem test_zeros_example : after (start 0x0100#16 [(9#4, 0x07#8)] [0x46#8, 0x89#8])
    (fun t => t.reg 8#4 == 0x05#8) = true := by decide

/-- V-BIT-6. -/
theorem test_ones_of_ff : after (start 0x0100#16 [(9#4, 0xFF#8)] [0x47#8, 0x89#8])
    (fun t => t.reg 8#4 == 0x08#8) = true := by decide

/-- R133, example. -/
theorem test_ones_example : after (start 0x0100#16 [(9#4, 0x07#8)] [0x47#8, 0x89#8])
    (fun t => t.reg 8#4 == 0x03#8) = true := by decide

/-- V-BIT-7. -/
theorem test_mov_halts_through_flags : after (start 0x0100#16 [(15#4, 0x40#8)] [0x48#8, 0x4F#8])
    (fun t => t.flags == 0x40#8 && t.pc == 0x0102#16) = true := by decide

/-- V-STEP-8. -/
theorem test_mov_writes_pc_low : after (start 0x0100#16 [(15#4, 0x40#8)] [0x48#8, 0x0F#8])
    (fun t => t.pc == 0x0140#16) = true := by decide

/-- V-BIT-8. -/
theorem test_mov16_masks_odd : after (start 0x0100#16 [(10#4, 0x34#8), (11#4, 0x12#8)] [0x49#8, 0x9B#8])
    (fun t => t.reg 8#4 == 0x34#8 && t.reg 9#4 == 0x12#8) = true := by decide

/-- V-BIT-10. -/
theorem test_mov16_jump : after (start 0x0100#16 [] [0xC9#8, 0x06#8, 0x34#8, 0x12#8])
    (fun t => t.pc == 0x1234#16) = true := by decide

/-- V-STK-3. -/
theorem test_call_straddles_top : after (start 0x0100#16 [(2#4, 0xFF#8), (3#4, 0xFF#8), (9#4, 0x03#8)] [0x4A#8, 0x08#8])
    (fun t => t.pc == 0x0300#16 && t.sp == 0x0001#16 && t.readByte 0xFFFF#16 == 0x02#8 && t.readByte 0x0000#16 == 0x01#8) = true := by decide

/-- V-STK-9. -/
theorem test_call_saves_sp : after (start 0x0100#16 [(3#4, 0x02#8), (9#4, 0x05#8)] [0x4A#8, 0x28#8])
    (fun t => t.sp == 0x0500#16 && t.readByte 0x0200#16 == 0x00#8 && t.readByte 0x0201#16 == 0x02#8) = true := by decide

/-- V-STK-4. -/
theorem test_ret_across_top : after ((start 0x0100#16 [(2#4, 0x01#8)] [0x4B#8, 0x00#8]).loadBytes 0xFFFF#16 [0x34#8, 0x12#8])
    (fun t => t.pc == 0x1234#16 && t.sp == 0xFFFF#16) = true := by decide

/-- V-STK-15. -/
theorem test_ret_into_flags : after ((start 0x0100#16 [(2#4, 0x02#8), (3#4, 0x02#8)] [0x4B#8, 0x40#8]).loadBytes 0x0200#16 [0x41#8, 0x99#8])
    (fun t => t.flags == 0x41#8 && t.reg 5#4 == 0x99#8 && t.sp == 0x0200#16) = true := by decide

/-- V-STK-11. -/
theorem test_load_into_flags : after ((start 0x0100#16 [(11#4, 0x02#8)] [0x4C#8, 0x4A#8]).loadBytes 0x0200#16 [0x40#8])
    (fun t => t.flags == 0x40#8) = true := by decide

/-- V-STK-12. -/
theorem test_load_outside_extent : after (State.onBus (start 0x0010#16 [(9#4, 0x33#8), (11#4, 0x02#8)] [0x4C#8, 0x9A#8]) 256 true)
    (fun t => t.reg 9#4 == 0x00#8 && t.pc == 0x0012#16) = true := by decide

/-- V-STK-13. -/
theorem test_store_dropped_on_rom : after (State.onBus ((start 0x0100#16 [(9#4, 0x5A#8), (11#4, 0x02#8)] [0x4D#8, 0xA9#8]).loadBytes 0x0200#16 [0x11#8]) 65536 false)
    (fun t => t.readByte 0x0200#16 == 0x11#8 && t.pc == 0x0102#16) = true := by decide

/-- V-STK-14. -/
theorem test_store_through_pc : after (start 0x0100#16 [] [0x4D#8, 0x00#8])
    (fun t => t.readByte 0x0102#16 == 0x02#8 && t.pc == 0x0102#16) = true := by decide

/-- V-STK-1. -/
theorem test_push_wraps_sp : after (start 0x0100#16 [(2#4, 0xFF#8), (3#4, 0xFF#8), (8#4, 0x2A#8)] [0x4E#8, 0x08#8])
    (fun t => t.sp == 0x0000#16 && t.readByte 0xFFFF#16 == 0x2A#8) = true := by decide

/-- V-STK-7. -/
theorem test_push_sp_low : after (start 0x0100#16 [(3#4, 0x02#8)] [0x4E#8, 0x02#8])
    (fun t => t.sp == 0x0201#16 && t.readByte 0x0200#16 == 0x00#8) = true := by decide

/-- V-STK-2. -/
theorem test_pop_wraps_sp : after ((start 0x0100#16 [] [0x4F#8, 0x90#8]).loadBytes 0xFFFF#16 [0x77#8])
    (fun t => t.sp == 0xFFFF#16 && t.reg 9#4 == 0x77#8) = true := by decide

/-- V-STK-8. -/
theorem test_pop_sp_low : after ((start 0x0100#16 [(2#4, 0x01#8), (3#4, 0x02#8)] [0x4F#8, 0x20#8]).loadBytes 0x0200#16 [0x55#8])
    (fun t => t.sp == 0x0255#16) = true := by decide

/-- V-LOG-2. -/
theorem test_and_flag_byte : after (start 0x0100#16 [(4#4, 0xBF#8), (9#4, 0x80#8)] [0x50#8, 0x49#8])
    (fun t => t.flags == 0x84#8) = true := by decide

/-- V-LOG-1. -/
theorem test_and_to_zero : after (start 0x0100#16 [(4#4, 0x07#8), (8#4, 0x0F#8), (9#4, 0xF0#8)] [0x50#8, 0x89#8])
    (fun t => t.flags == 0x03#8 && t.reg 8#4 == 0x00#8) = true := by decide

/-- V-LOG-3. -/
theorem test_or_clears_neg : after (start 0x0100#16 [(4#4, 0x04#8), (8#4, 0x01#8), (9#4, 0x02#8)] [0x51#8, 0x89#8])
    (fun t => t.flags == 0x00#8 && t.reg 8#4 == 0x03#8) = true := by decide

/-- V-LOG-4. -/
theorem test_or_into_flags_halts : after (start 0x0100#16 [(9#4, 0x40#8)] [0x51#8, 0x49#8])
    (fun t => t.flags == 0x40#8) = true := by decide

/-- V-LOG-5. -/
theorem test_xor_self : after (start 0x0100#16 [(4#4, 0x01#8), (8#4, 0x5A#8)] [0x52#8, 0x88#8])
    (fun t => t.flags == 0x03#8 && t.reg 8#4 == 0x00#8) = true := by decide

/-- V-LOG-6. -/
theorem test_xor_neg : after (start 0x0100#16 [(8#4, 0x0F#8), (9#4, 0xFF#8)] [0x52#8, 0x89#8])
    (fun t => t.flags == 0x04#8 && t.reg 8#4 == 0xF0#8) = true := by decide

/-- V-LOG-7. -/
theorem test_not_zero : after (start 0x0100#16 [(4#4, 0x02#8)] [0x53#8, 0x89#8])
    (fun t => t.flags == 0x04#8 && t.reg 8#4 == 0xFF#8) = true := by decide

/-- V-LOG-8. -/
theorem test_not_in_place : after (start 0x0100#16 [(8#4, 0x80#8)] [0x53#8, 0x88#8])
    (fun t => t.flags == 0x00#8 && t.reg 8#4 == 0x7F#8) = true := by decide

/-- V-ARI-3. -/
theorem test_add_max : after (start 0x0100#16 [(4#4, 0x01#8), (8#4, 0xFF#8), (9#4, 0xFF#8)] [0x54#8, 0x89#8])
    (fun t => t.flags == 0x05#8 && t.reg 8#4 == 0xFF#8) = true := by decide

/-- V-ARI-4. -/
theorem test_add_flag_byte : after (start 0x0100#16 [(4#4, 0x01#8), (9#4, 0x01#8)] [0x54#8, 0x49#8])
    (fun t => t.flags == 0x00#8) = true := by decide

/-- V-ARI-6. -/
theorem test_sub_borrow_in : after (start 0x0100#16 [(8#4, 0x05#8), (9#4, 0x03#8)] [0x55#8, 0x89#8])
    (fun t => t.flags == 0x01#8 && t.reg 8#4 == 0x01#8) = true := by decide

/-- V-ARI-8. -/
theorem test_sub_borrow_out : after (start 0x0100#16 [] [0x55#8, 0x89#8])
    (fun t => t.flags == 0x04#8 && t.reg 8#4 == 0xFF#8) = true := by decide

/-- V-ARI-10. -/
theorem test_rsub_borrow_out : after (start 0x0100#16 [(4#4, 0x01#8), (8#4, 0x05#8), (9#4, 0x03#8)] [0x56#8, 0x89#8])
    (fun t => t.flags == 0x04#8 && t.reg 8#4 == 0xFE#8) = true := by decide

/-- R162, example. -/
theorem test_rsub_example : after (start 0x0100#16 [(4#4, 0x01#8), (8#4, 0x03#8), (9#4, 0x05#8)] [0x56#8, 0x89#8])
    (fun t => t.flags == 0x01#8 && t.reg 8#4 == 0x02#8) = true := by decide

/-- V-ARI-14. -/
theorem test_neg_keeps_carry : after (start 0x0100#16 [(4#4, 0x01#8), (8#4, 0x05#8)] [0x57#8, 0x88#8])
    (fun t => t.flags == 0x05#8 && t.reg 8#4 == 0xFB#8) = true := by decide

/-- V-ARI-13. -/
theorem test_neg_80 : after (start 0x0100#16 [(9#4, 0x80#8)] [0x57#8, 0x89#8])
    (fun t => t.flags == 0x04#8 && t.reg 8#4 == 0x80#8) = true := by decide

/-- V-SHI-2. -/
theorem test_shl_by_8 : after (start 0x0100#16 [(4#4, 0x07#8), (8#4, 0xFF#8), (9#4, 0x08#8)] [0x58#8, 0x89#8])
    (fun t => t.flags == 0x07#8 && t.reg 8#4 == 0x00#8) = true := by decide

/-- V-SHI-1. -/
theorem test_shl_by_7 : after (start 0x0100#16 [(8#4, 0x01#8), (9#4, 0x07#8)] [0x58#8, 0x89#8])
    (fun t => t.reg 8#4 == 0x80#8) = true := by decide

/-- V-SHI-5. -/
theorem test_shr_by_7 : after (start 0x0100#16 [(8#4, 0x80#8), (9#4, 0x07#8)] [0x59#8, 0x89#8])
    (fun t => t.reg 8#4 == 0x01#8) = true := by decide

/-- V-SHI-6. -/
theorem test_shr_by_8 : after (start 0x0100#16 [(8#4, 0xFF#8), (9#4, 0x08#8)] [0x59#8, 0x89#8])
    (fun t => t.reg 8#4 == 0x00#8) = true := by decide

/-- V-SHI-9. -/
theorem test_shlimm_8 : after (start 0x0100#16 [(4#4, 0x07#8), (8#4, 0xFF#8)] [0x5A#8, 0x88#8])
    (fun t => t.flags == 0x07#8 && t.reg 8#4 == 0x00#8) = true := by decide

/-- V-SHI-8. -/
theorem test_shlimm_7 : after (start 0x0100#16 [(8#4, 0x03#8)] [0x5A#8, 0x87#8])
    (fun t => t.reg 8#4 == 0x80#8) = true := by decide

/-- V-SHI-10. -/
theorem test_shrimm_15 : after (start 0x0100#16 [(8#4, 0xFF#8)] [0x5B#8, 0x8F#8])
    (fun t => t.reg 8#4 == 0x00#8) = true := by decide

/-- R173, example. -/
theorem test_shrimm_example : after (start 0x0100#16 [(8#4, 0xF1#8)] [0x5B#8, 0x84#8])
    (fun t => t.reg 8#4 == 0x0F#8) = true := by decide

/-- V-SHI-12. -/
theorem test_inc_carry : after (start 0x0100#16 [(8#4, 0xF5#8)] [0x5C#8, 0x8F#8])
    (fun t => t.flags == 0x01#8 && t.reg 8#4 == 0x04#8) = true := by decide

/-- V-SHI-18. -/
theorem test_inc_flag_byte : after (start 0x0100#16 [(4#4, 0x01#8)] [0x5C#8, 0x41#8])
    (fun t => t.flags == 0x00#8) = true := by decide

/-- V-SHI-15. -/
theorem test_dec_zero_sets_carry : after (start 0x0100#16 [(8#4, 0x33#8)] [0x5D#8, 0x80#8])
    (fun t => t.flags == 0x01#8 && t.reg 8#4 == 0x33#8) = true := by decide

/-- V-SHI-16. -/
theorem test_dec_borrow : after (start 0x0100#16 [(8#4, 0x03#8)] [0x5D#8, 0x85#8])
    (fun t => t.flags == 0x04#8 && t.reg 8#4 == 0xFE#8) = true := by decide

/-- V-FLG-7. -/
theorem test_set_predicated_halts : after (start 0x0100#16 [(4#4, 0x80#8)] [0x7E#8, 0x40#8])
    (fun t => t.flags == 0xC0#8) = true := by decide

/-- V-FLG-8. -/
theorem test_set_stale_a0 : after (start 0x0100#16 [(5#4, 0x40#8)] [0x1E#8])
    (fun t => t.flags == 0x40#8 && t.pc == 0x0101#16) = true := by decide

/-- V-FLG-4. -/
theorem test_clear_all : after (start 0x0100#16 [(4#4, 0xBF#8)] [0x5F#8, 0xFF#8])
    (fun t => t.flags == 0x00#8) = true := by decide

/-- V-FLG-5. -/
theorem test_clear_halt_while_running : after (start 0x0100#16 [(4#4, 0x81#8)] [0x5F#8, 0x40#8])
    (fun t => t.flags == 0x81#8) = true := by decide

/-- R230: the randomised creation forces `pc` and HALT only. -/
theorem test_create_randomised :
    (State.create (.randomised (Vector.replicate 16 0xFF#8)) Bus.atReset).flags = 0xBF#8 := by decide

/-! ### Witnesses: a concrete state and operands that meet all the hypotheses of a statement together, and, for a
statement with several clauses, one for each clause, at the ends of its range -/

theorem witness_DecodeAfterEncode : (Instr.mov16 true [0x06#8, 0x09#8, 0x00#8]).WellFormed = true := by decide

theorem witness_EncodeAfterDecode :
    decode [0x88#8, 0x86#8, 0x05#8, 0x5E#8] = .ok (.mov false [0x86#8, 0x05#8], [0x5E#8]) := rfl

theorem witness_StepRunsDecodedInstruction :
    let s := start 0xFFFF#16 [] [0x54#8, 0x89#8]
    s.halted = false ∧ decode (s.bytesAt s.pc 4) = .ok (.add false [0x89#8], [0x00#8, 0x00#8]) := ⟨by decide, rfl⟩

theorem witness_HaltedStepsAreIdle : (start 0x0100#16 [(4#4, 0x40#8)] [0x5E#8, 0x40#8]).halted = true := by decide

/-- The fetch of a running step whose predicate test fails, the last byte of it at 0xFFFF. -/
theorem witness_FetchEffect :
    let s := start 0xFFFE#16 [(4#4, 0x3F#8)] [0x6B#8, 0x12#8]
    s.halted = false ∧ s.runs s.fetchInstr.predicated = false ∧ s.fetchInstr.operands.length = 1 := by decide

theorem witness_SkippedInstructionOnlyFetches :
    (Instr.set true [0x40#8]).WellFormed = true ∧ (Instr.set true [0x40#8]).predicated = true ∧
      (start 0x0100#16 [(4#4, 0x7F#8)] []).flag .cond = false := by decide

theorem witness_OutsideExtentRunsNop :
    let s := State.onBus (start 0x0100#16 [] []) 0x100 true
    s.halted = false ∧ s.bus.size ≤ s.pc.toNat := by decide

theorem witness_PcAdvance :
    let s := start 0x0100#16 [] []
    (Instr.swap false [0x2F#8]).WellFormed = true ∧
      ∀ r ∈ destRegisters (.swap false [0x2F#8]) (s.fetched [0x2F#8]), pairIndex r ≠ pcIndex := by decide

theorem witness_CreationSetsRegisters :
    pairIndex 2#4 ≠ pcIndex ∧ (2#4 : RegIdx) ≠ flagIndex ∧ pairIndex 15#4 ≠ pcIndex ∧ (15#4 : RegIdx) ≠ flagIndex ∧
      Flag.cond ≠ .halt := by decide

theorem witness_StepKeepsInv :
    let s := start 0x0100#16 [(2#4, 0xFF#8), (3#4, 0xFF#8), (8#4, 0x2A#8)] [0x4E#8, 0x08#8]
    s.Inv ∧ step s = .next (nextOf (.push false [0x08#8]) s) := ⟨show _ = true by decide, rfl⟩

theorem witness_InstructionFrame :
    let s := start 0x0100#16 [(4#4, 0x80#8)] []
    exec (.call true [0x08#8]) s = .next (nextOf (.call true [0x08#8]) s) ∧
      flagIndex ∉ destRegisters (.call true [0x08#8]) (s.fetched [0x08#8]) := ⟨rfl, by decide⟩

/-- Both ways to halt: `set` with the HALT bit, and a write to register 4. -/
theorem witness_HaltEnteredOnlyBySetOrFlagByteWrite :
    (let s := start 0x0100#16 [] [0x5E#8, 0x40#8]
     s.halted = false ∧ step s = .next (nextOf (.set false [0x40#8]) s) ∧
       (nextOf (.set false [0x40#8]) s).halted = true) ∧
    (let s := start 0x0100#16 [(15#4, 0x40#8)] [0x48#8, 0x4F#8]
     s.halted = false ∧ step s = .next (nextOf (.mov false [0x4F#8]) s) ∧
       (nextOf (.mov false [0x4F#8]) s).halted = true) :=
  ⟨⟨by decide, rfl, by decide⟩, ⟨by decide, rfl, by decide⟩⟩

theorem witness_OnlyStoringInstructionsChangeMemory :
    let s := start 0x0100#16 [(2#4, 0xFF#8), (3#4, 0xFF#8)] [0x4A#8, 0x08#8]
    let t := nextOf (.call false [0x08#8]) s
    step s = .next t ∧ t.readByte 0xFFFF#16 ≠ s.readByte 0xFFFF#16 ∧ t.readByte 0x0000#16 ≠ s.readByte 0x0000#16 :=
  ⟨rfl, by decide, by decide⟩

theorem witness_ReadOnlyBusIsUnchangedAndUnseen :
    let s := State.onBus (start 0x0100#16 [(8#4, 0x2A#8)] [0x4E#8, 0x08#8]) 65536 false
    let t := nextOf (.push false [0x08#8]) s
    let s' := s.setBus { s.bus with writable := true }
    let t' := nextOf (.push false [0x08#8]) s'
    s.bus.writable = false ∧ step s = .next t ∧ step s' = .next t' ∧ t'.bus ≠ t.bus :=
  ⟨by decide, rfl, rfl, by decide⟩

theorem witness_OutOfRangeAccess :
    (State.onBus State.reset 0x100 true).bus.size ≤ (0x100#16).toNat ∧
      (State.onBus State.reset 1 false).bus.size ≤ (0xFFFF#16).toNat ∧
      (State.onBus State.reset 0x100 true).Inv ∧ (State.onBus State.reset 65536 true).Inv := by
  simp only [State.Inv]; decide

/-- The last address inside the extent, the first one outside, and read-only storage. -/
theorem witness_ReadAfterWrite :
    (let b := (State.onBus State.reset 0x100 true).bus
     b.writable = true ∧ (0xFF#16).toNat < b.size ∧ b.size ≤ (0x100#16).toNat) ∧
    (State.onBus State.reset 0x100 false).bus.writable = false ∧ (0x100#16 : Word) ≠ 0xFF#16 := by decide

/-- A word that straddles the top of the address space. -/
theorem witness_WordAccessors :
    State.reset.bus.writeLands 0xFFFF#16 = true ∧ State.reset.bus.writeLands (0xFFFF#16 + 1#16) = true ∧
      (0x0001#16 : Word) ≠ 0xFFFF#16 ∧ (0x0001#16 : Word) ≠ 0xFFFF#16 + 1#16 := by decide

/-- The predicate test passes with `p` 0, and with `p` 1 and COND 1: the hypothesis of every statement of a result. -/
theorem witness_runs :
    (start 0x0100#16 [] []).runs false = true ∧ (start 0x0100#16 [(4#4, 0x80#8)] []).runs true = true := by decide

theorem witness_CmpResult : (start 0x0100#16 [(8#4, 0x80#8), (9#4, 0x7F#8)] []).runs false = true ∧
    (exec (.cmp false [0x89#8]) (start 0x0100#16 [(8#4, 0x80#8), (9#4, 0x7F#8)] []) =
      .next (nextOf (.cmp false [0x89#8]) (start 0x0100#16 [(8#4, 0x80#8), (9#4, 0x7F#8)] []))) := ⟨by decide, rfl⟩

theorem witness_AnyAllResult : (start 0x0100#16 [(4#4, 0x81#8)] []).runs true = true := by decide

theorem witness_SwapResult : (start 0x0100#16 [(4#4, 0x80#8), (9#4, 0x12#8)] []).runs true = true := by decide

theorem witness_RevResult : (start 0x0100#16 [(9#4, 0xB4#8)] []).runs false = true := by decide

theorem witness_BitCountResults : (start 0x0100#16 [(9#4, 0xFF#8)] []).runs false = true := by decide

theorem witness_MovResult : (start 0x0100#16 [(9#4, 0x77#8)] []).runs false = true := by decide

/-- The clause of a destination pair at index 0. -/
theorem witness_Mov16Result :
    let s := start 0x0100#16 [(4#4, 0x80#8)] []
    s.runs true = true ∧ pairIndex (s.fetched [0x16#8, 0x34#8, 0x12#8]).dest = pcIndex := by decide

/-- The clauses of `call`: dest is and is not the `sp` pair; both bytes land (at the wrap), one lands, none lands. -/
theorem witness_CallResult :
    (let s := start 0x0100#16 [(2#4, 0xFF#8), (3#4, 0xFF#8)] []
     let u := s.fetched [0x08#8]
     s.runs false = true ∧ pairIndex u.dest ≠ spIndex ∧ s.bus.writeLands u.sp = true ∧
       s.bus.writeLands (u.sp + 1#16) = true) ∧
    (let s := State.onBus (start 0x0010#16 [(2#4, 0xFF#8)] []) 0x100 true
     let u := s.fetched [0x22#8]
     s.runs false = true ∧ pairIndex u.dest = spIndex ∧ pairIndex u.src = spIndex ∧ s.bus.writeLands u.sp = true ∧
       s.bus.writeLands (u.sp + 1#16) = false) ∧
    (let s := State.onBus (start 0x0010#16 [(2#4, 0xFF#8)] []) 0x100 false
     s.runs false = true ∧ s.bus.writeLands (s.fetched [0x08#8]).sp = false) := by decide

theorem witness_RetResult :
    let s := start 0x0100#16 [(2#4, 0x01#8)] []
    s.runs false = true ∧ pairIndex (s.fetched [0x00#8]).dest ≠ spIndex := by decide

theorem witness_LoadResult : (start 0x0100#16 [(10#4, 0xFF#8), (11#4, 0xFF#8)] []).runs false = true := by decide

/-- A store that lands at the last address of the extent, and one that does not, just outside it. -/
theorem witness_StoreResult :
    (let s := State.onBus (start 0x0010#16 [(10#4, 0xFF#8)] []) 0x100 true
     let u := s.fetched [0xA9#8]
     s.runs false = true ∧ s.bus.writeLands (u.pair u.dest) = true) ∧
    (let s := State.onBus (start 0x0010#16 [(11#4, 0x01#8)] []) 0x100 true
     let u := s.fetched [0xA9#8]
     s.runs false = true ∧ s.bus.writeLands (u.pair u.dest) = false) := by decide

theorem witness_PushResult :
    (let s := State.onBus (start 0x0010#16 [(2#4, 0xFF#8)] []) 0x100 true
     s.runs false = true ∧ s.bus.writeLands (s.fetched [0x02#8]).sp = true) ∧
    (let s := State.onBus (start 0x0010#16 [(3#4, 0x01#8)] []) 0x100 true
     s.runs false = true ∧ s.bus.writeLands (s.fetched [0x02#8]).sp = false) := by decide

/-- The clauses of `pop`: dest is r2, is r3, and is no byte of `sp`. -/
theorem witness_PopResult :
    let s := start 0x0100#16 [(3#4, 0x02#8)] []
    s.runs false = true ∧ (s.fetched [0x20#8]).dest = 2#4 ∧ (s.fetched [0x30#8]).dest = 3#4 ∧
      pairIndex (s.fetched [0x90#8]).dest ≠ spIndex := by decide

/-- The two clauses of every result with a flag updater: dest is the flag byte, and is not. -/
theorem witness_LogicResults :
    let s := start 0x0100#16 [(4#4, 0xBF#8), (9#4, 0x80#8)] []
    s.runs true = true ∧ (s.fetched [0x49#8]).dest = flagIndex ∧ (s.fetched [0x89#8]).dest ≠ flagIndex := by decide

theorem witness_AddResult :
    let s := start 0x0100#16 [(4#4, 0x81#8), (8#4, 0xFF#8), (9#4, 0xFF#8)] []
    s.runs true = true ∧ (s.fetched [0x49#8]).dest = flagIndex ∧ (s.fetched [0x89#8]).dest ≠ flagIndex := by decide

theorem witness_SubtractResults :
    let s := start 0x0100#16 [(8#4, 0x00#8), (9#4, 0xFF#8)] []
    s.runs false = true ∧ (s.fetched [0x49#8]).dest = flagIndex ∧ (s.fetched [0x89#8]).dest ≠ flagIndex := by decide

theorem witness_NegResult :
    let s := start 0x0100#16 [(9#4, 0x80#8)] []
    s.runs false = true ∧ (s.fetched [0x49#8]).dest = flagIndex ∧ (s.fetched [0x89#8]).dest ≠ flagIndex := by decide

/-- A shift by 8, where the clause of a zero result begins. -/
theorem witness_ShlResult :
    let s := start 0x0100#16 [(8#4, 0xFF#8), (9#4, 0x08#8)] []
    let u := s.fetched [0x89#8]
    s.runs false = true ∧ (u.reg u.src).toNat ≥ 8 := by decide

theorem witness_ShrResult :
    let s := start 0x0100#16 [(8#4, 0xFF#8), (9#4, 0xFF#8)] []
    let u := s.fetched [0x89#8]
    s.runs false = true ∧ (u.reg u.src).toNat ≥ 8 := by decide

theorem witness_ShiftImmediateResults :
    let s := start 0x0100#16 [(8#4, 0xFF#8)] []
    s.runs false = true ∧ ((s.fetched [0x88#8]).reg a0Index).toNat % 16 ≥ 8 := by decide

theorem witness_IncDecResults :
    let s := start 0x0100#16 [(8#4, 0x0F#8)] []
    s.runs false = true ∧ (s.fetched [0x4F#8]).dest = flagIndex ∧ (s.fetched [0x8F#8]).dest ≠ flagIndex := by decide

theorem witness_SetClearResults :
    let s := start 0x0100#16 [(4#4, 0x80#8)] []
    s.runs true = true ∧ ((s.fetched [0x40#8]).reg a0Index).getLsbD 6 = true := by decide

theorem witness_PushPopRoundTrip :
    let s := start 0x0100#16 [(2#4, 0xFF#8), (3#4, 0xFF#8), (4#4, 0x80#8), (8#4, 0x2A#8)] []
    let t := nextOf (.push false [0x08#8]) s
    s.runs false = true ∧ s.runs true = true ∧ s.bus.writeLands s.sp = true ∧
      pairIndex (t.fetched [0x90#8]).dest ≠ spIndex := by decide

/-- A call at the top of the address space and the return from the state it leaves. -/
theorem witness_CallRetRoundTrip :
    let s := start 0x0100#16 [(2#4, 0xFF#8), (3#4, 0xFF#8), (9#4, 0x03#8)] []
    let t := nextOf (.call false [0x08#8]) s
    s.runs false = true ∧ [0x08#8].length ≤ 3 ∧ s.bus.writeLands s.sp = true ∧
      s.bus.writeLands (s.sp + 1#16) = true ∧ exec (.call false [0x08#8]) s = .next t ∧
      pairIndex (s.fetched [0x08#8]).dest ≠ spIndex ∧ t.runs false = true ∧
      pairIndex (t.fetched [0x00#8]).dest ≠ spIndex ∧ pairIndex (s.fetched [0x08#8]).dest = pcIndex :=
  ⟨by decide, by decide, by decide, by decide, rfl, by decide, by decide, by decide, by decide⟩

theorem witness_CallThenTwoPops :
    let s := start 0x0100#16 [(3#4, 0x02#8), (9#4, 0x03#8)] []
    let t := nextOf (.call false [0x08#8]) s
    let t1 := nextOf (.pop false [0x90#8]) t
    s.runs false = true ∧ s.bus.writeLands s.sp = true ∧ s.bus.writeLands (s.sp + 1#16) = true ∧
      exec (.call false [0x08#8]) s = .next t ∧ pairIndex (s.fetched [0x08#8]).dest ≠ spIndex ∧
      pairIndex (t.fetched [0x90#8]).dest ≠ spIndex ∧ pairIndex (t1.fetched [0xA0#8]).dest ≠ spIndex :=
  ⟨by decide, by decide, by decide, rfl, by decide, by decide, by decide⟩

/-- `store r0, r9` with the address in `pc`: the byte goes to the next instruction's address. -/
theorem witness_StoredOpcodeIsFetchedNext :
    let s := start 0x0100#16 [(9#4, 0x5E#8)] []
    let u := s.fetched [0x09#8]
    s.runs false = true ∧ u.pair u.dest = u.pc ∧ s.bus.writeLands u.pc = true := by decide

theorem witness_ChainedAddition :
    let lo : Byte := 0x8A#8
    let hi : Byte := 0x9B#8
    (∀ r ∈ [lo.extractLsb' 4 4, lo.extractLsb' 0 4, hi.extractLsb' 4 4, hi.extractLsb' 0 4], r.toNat ≥ 8) ∧
      lo.extractLsb' 4 4 ≠ hi.extractLsb' 4 4 ∧ lo.extractLsb' 4 4 ≠ hi.extractLsb' 0 4 := by decide

theorem witness_ChainedSubtraction :
    let lo : Byte := 0x8F#8
    let hi : Byte := 0x9F#8
    (∀ r ∈ [lo.extractLsb' 4 4, lo.extractLsb' 0 4, hi.extractLsb' 4 4, hi.extractLsb' 0 4], r.toNat ≥ 8) ∧
      lo.extractLsb' 4 4 ≠ hi.extractLsb' 4 4 ∧ lo.extractLsb' 4 4 ≠ hi.extractLsb' 0 4 := by decide

theorem witness_HostRegisterAccess : 20 % 16 = 4 % 16 ∧ ¬(20 % 16 = 5 % 16) := by decide

end Sys2Proof.Tests
end

section
/-! PROOFS. The register file through its accessors (spec/10_state.md R23, R24): a pair as a number, and the host's
masked index. -/

namespace Sys2Proof.Machine

/-! ### A word and its two bytes as numbers -/

theorem toNat_wordOf (hi lo : Byte) : (wordOf hi lo).toNat = 256 * hi.toNat + lo.toNat := by
  have hlo : lo.toNat < 2 ^ 8 := lo.isLt
  rw [wordOf, BitVec.toNat_append, ← Nat.shiftLeft_add_eq_or_of_lt hlo, Nat.shiftLeft_eq]
  omega

theorem toNat_lowByte (v : Word) : (lowByte v).toNat = v.toNat % 256 := by
  simp [lowByte]

theorem toNat_highByte (v : Word) : (highByte v).toNat = v.toNat / 256 := by
  have hv : v.toNat < 65536 := v.isLt
  simp only [highByte, BitVec.extractLsb'_toNat, Nat.shiftRight_eq_div_pow]
  omega

/-! ### Register pairs -/

theorem toNat_pairIndex (i : RegIdx) : (pairIndex i).toNat = i.toNat / 2 * 2 := by
  revert i; decide

theorem State.toNat_pair (s : State) (i : RegIdx) :
    (s.pair i).toNat = 256 * (s.reg (pairIndex i + 1#4)).toNat + (s.reg (pairIndex i)).toNat :=
  toNat_wordOf _ _

/-- R24: an index stands for its pair through its even index alone. -/
theorem State.pair_congr (s : State) {i j : RegIdx} (h : pairIndex i = pairIndex j) : s.pair i = s.pair j := by
  simp only [State.pair, h]

theorem State.pair_setPair_same (s : State) (i : RegIdx) (v : Word) : (s.setPair i v).pair i = v := by
  rw [State.pair_setPair, if_pos rfl]

theorem State.reg_setPair_low (s : State) (i : RegIdx) (v : Word) :
    (s.setPair i v).reg (pairIndex i) = lowByte v := by
  rw [State.reg_setPair, if_pos rfl]

theorem State.reg_setPair_high (s : State) (i : RegIdx) (v : Word) :
    (s.setPair i v).reg (pairIndex i + 1#4) = highByte v := by
  rw [State.reg_setPair, if_neg (pairIndex_ne_succ i i).symm, if_pos rfl]

theorem State.sameRegistersBut_setPair (s : State) (i : RegIdx) (v : Word) :
    SameRegistersBut s (s.setPair i v) (pairRegisters i) := by
  intro j hj
  obtain ⟨hlow, hhigh⟩ : j ≠ pairIndex i ∧ j ≠ pairIndex i + 1#4 := by simpa [pairRegisters] using hj
  rw [State.reg_setPair, if_neg hlow, if_neg hhigh]

/-! ### The host's index (R23) -/

/-- Two host indices name one register exactly when they agree modulo 16. -/
theorem maskIndex_eq_iff (i j : Nat) : maskIndex i = maskIndex j ↔ i % 16 = j % 16 := by
  simp [maskIndex, BitVec.toNat_eq]

theorem State.hostRegister_setRegister (s : State) (i j : Nat) (v : Byte) :
    (s.hostAct (.setRegister i v)).hostRegister j = if i % 16 = j % 16 then v else s.hostRegister j := by
  simp only [State.hostAct, State.hostRegister, State.reg_setReg, maskIndex_eq_iff]

theorem State.hostRegister_congr (s : State) {i j : Nat} (h : i % 16 = j % 16) :
    s.hostRegister i = s.hostRegister j :=
  congrArg s.reg ((maskIndex_eq_iff i j).mpr h)

/-! ### The statements -/

/-- Settles O22: the index `k` of the statement is the model's `pairIndex i`. -/
theorem pairAccess : Obligations.PairAccess := by
  intro s i v
  refine ⟨pairIndex i, toNat_pairIndex i, s.toNat_pair i, ?oddIndex, s.pair_setPair_same i v, ?low, ?high,
    s.sameRegistersBut_setPair i v, s.bus_setPair i v⟩
  case oddIndex => exact s.pair_congr (by rw [pairIndex_succ, pairIndex_pairIndex])
  case low => rw [State.reg_setPair_low, toNat_lowByte]
  case high => rw [State.reg_setPair_high, toNat_highByte]

/-- Settles O54: everything follows from which host indices name one register (`maskIndex_eq_iff`). -/
theorem hostRegisterAccess : Obligations.HostRegisterAccess := by
  intro s i j v
  exact ⟨s.hostRegister_setRegister i j v, s.bus_setReg (maskIndex i) v,
    s.hostRegister_congr (Nat.add_mod_right j 16)⟩

end Sys2Proof.Machine
end

section
/-! PROOFS. How the core uses the bus (spec/20_memory.md R52, R53, R55): of the 32 handlers six access it, three to
read and three to write; a step sees the bus through its reads alone. -/

namespace Sys2Proof.Machine

/-! ### The handler of an instruction -/

/-- The handler that the dispatch of R106 runs; `exec_eq_execute` ties it to `exec`. -/
def handlerOf : Instr → State → State
  | .nop _ _ => nopHandler
  | .cmp _ _ => cmpHandler
  | .any _ _ => anyHandler
  | .all _ _ => allHandler
  | .swap _ _ => swapHandler
  | .rev _ _ => revHandler
  | .zeros _ _ => zerosHandler
  | .ones _ _ => onesHandler
  | .mov _ _ => movHandler
  | .mov16 _ _ => mov16Handler
  | .call _ _ => callHandler
  | .ret _ _ => retHandler
  | .load _ _ => loadHandler
  | .store _ _ => storeHandler
  | .push _ _ => pushHandler
  | .pop _ _ => popHandler
  | .and _ _ => andHandler
  | .or _ _ => orHandler
  | .xor _ _ => xorHandler
  | .not _ _ => notHandler
  | .add _ _ => addHandler
  | .sub _ _ => subHandler
  | .rsub _ _ => rsubHandler
  | .neg _ _ => negHandler
  | .shl _ _ => shlHandler
  | .shr _ _ => shrHandler
  | .shlimm _ _ => shlimmHandler
  | .shrimm _ _ => shrimmHandler
  | .inc _ _ => incHandler
  | .dec _ _ => decHandler
  | .set _ _ => setHandler
  | .clear _ _ => clearHandler

/-- R105 to R107 for all 32 instructions at once. -/
theorem exec_eq_execute (i : Instr) (s : State) :
    exec i s = s.execute i.predicated i.operands (handlerOf i) := by
  cases i <;> rfl

theorem exec_of_runs {i : Instr} {s : State} (hr : s.runs i.predicated = true) :
    exec i s = .next (handlerOf i (s.fetched i.operands)) := by
  rw [exec_eq_execute, State.execute_runs _ _ _ _ hr]

theorem exec_of_skipped {i : Instr} {s : State} (hr : s.runs i.predicated = false) :
    exec i s = .next (s.fetched i.operands) := by
  rw [exec_eq_execute, State.execute_skipped _ _ _ _ hr]

theorem step_of_halted {s : State} (h : s.halted = true) : step s = .next s := by
  rw [step, if_pos h]

theorem step_of_running {s : State} (h : s.halted = false) : step s = exec s.fetchInstr s := by
  rw [step, if_neg (by simp [h])]

/-- All that a step can do: idle, fetch and skip, or fetch and run the handler (R100). -/
theorem step_cases {s t : State} (e : step s = .next t) :
    t = s ∨ t = s.fetched s.fetchInstr.operands ∨
      t = handlerOf s.fetchInstr (s.fetched s.fetchInstr.operands) := by
  cases hh : s.halted with
  | true =>
    rw [step_of_halted hh] at e
    exact .inl (Host.Outcome.next.inj e).symm
  | false =>
    rw [step_of_running hh, exec_eq_execute] at e
    obtain ⟨-, ht⟩ | ⟨-, ht⟩ := State.execute_cases e
    · exact .inr (.inr ht)
    · exact .inr (.inl ht)

/-- R111: no step fails. -/
theorem step_answers_next (s : State) : ∃ t, step s = .next t := by
  cases hh : s.halted with
  | true => exact ⟨s, step_of_halted hh⟩
  | false => exact ⟨_, (step_of_running hh).trans (exec_eq_execute s.fetchInstr s)⟩

/-! ### Handlers that work on registers alone -/

/-- A handler that neither looks at the bus nor changes it: it does the same to the registers beside any bus. -/
def RegistersOnly (h : State → State) : Prop :=
  ∀ (u : State) (b : Bus), h (u.setBus b) = (h u).setBus b

theorem RegistersOnly.bus_eq {h : State → State} (hh : RegistersOnly h) (u : State) : (h u).bus = u.bus :=
  calc (h u).bus
    _ = ((h u).setBus u.bus).bus := congrArg State.bus (hh u u.bus)
    _ = u.bus := rfl

theorem State.setFlag_setBus (s : State) (b : Bus) (f : Flag) (v : Bool) :
    (s.setBus b).setFlag f v = (s.setFlag f v).setBus b := by
  cases v <;> rfl

theorem State.logicFlags_setBus (s : State) (b : Bus) (v : Byte) :
    (s.setBus b).logicFlags v = (s.logicFlags v).setBus b := by
  simp only [State.logicFlags, State.setFlag_setBus]

theorem State.arithFlags_setBus (s : State) (b : Bus) (t : Nat) :
    (s.setBus b).arithFlags t = (s.arithFlags t).setBus b := by
  simp only [State.arithFlags, State.setFlag_setBus]

theorem State.compareFlags_setBus (s : State) (b : Bus) (v w : Byte) :
    (s.setBus b).compareFlags v w = (s.compareFlags v w).setBus b := by
  simp only [State.compareFlags, State.setFlag_setBus]

theorem State.writeLogic_setBus (s : State) (b : Bus) (v : Byte) :
    (s.setBus b).writeLogic v = (s.writeLogic v).setBus b :=
  (s.setReg s.dest v).logicFlags_setBus b v

theorem State.writeArith_setBus (s : State) (b : Bus) (t : Nat) :
    (s.setBus b).writeArith t = (s.writeArith t).setBus b :=
  (s.setReg s.dest (BitVec.ofNat 8 t)).arithFlags_setBus b t

/-- R55: the six instructions whose handler accesses the bus. -/
def accessesBus : Instr → Bool
  | .call _ _ | .ret _ _ | .load _ _ | .store _ _ | .push _ _ | .pop _ _ => true
  | _ => false

theorem registersOnly_handlerOf {i : Instr} (hi : accessesBus i = false) : RegistersOnly (handlerOf i) := by
  intro u b
  cases i with
  | nop | swap | rev | zeros | ones | mov | mov16 | shl | shr | shlimm | shrimm | set | clear => rfl
  | cmp =>
    calc (((u.setBus b).compareFlags u.destReg u.srcReg).logicFlags u.srcReg)
      _ = ((u.compareFlags u.destReg u.srcReg).setBus b).logicFlags u.srcReg := by
          rw [State.compareFlags_setBus]
      _ = (cmpHandler u).setBus b := State.logicFlags_setBus _ b u.srcReg
  | any | all => exact u.setFlag_setBus b .cond _
  | and | or | xor | not | neg => exact u.writeLogic_setBus b _
  | add | sub | rsub | inc | dec => exact u.writeArith_setBus b _
  | call | ret | load | store | push | pop => exact absurd hi (by simp [accessesBus])

/-! ### Writes that do not land (R52, R53) -/

/-- R52: a write outside the extent is discarded. -/
theorem Bus.write_outside (b : Bus) (a : Word) (v : Byte) (h : b.size ≤ a.toNat) : b.write a v = b := by
  simp [Bus.write, Bus.writeLands, Bus.inExtent, Nat.not_lt.2 h]

/-- R53: the three storing handlers write through `Bus.write`, which a read-only bus ignores. -/
theorem bus_handlerOf_readOnly (i : Instr) (u : State) (h : u.bus.writable = false) :
    (handlerOf i u).bus = u.bus := by
  cases i with
  | store => exact u.bus.write_readOnly u.destPair u.srcReg h
  | push => exact u.bus.write_readOnly u.sp u.srcReg h
  | call => exact u.bus.writeWord_readOnly stackWordOrder u.sp u.destPair h
  | ret | load | pop => rfl
  | _ => exact (registersOnly_handlerOf rfl).bus_eq u

theorem bus_step_readOnly {s t : State} (h : s.bus.writable = false) (e : step s = .next t) :
    t.bus = s.bus := by
  obtain rfl | rfl | rfl := step_cases e
  · rfl
  · exact s.bus_fetched _
  · rw [bus_handlerOf_readOnly _ _ (by rwa [State.bus_fetched]), State.bus_fetched]

/-! ### The registers depend on the bus through its reads alone -/

theorem State.loadScratch_setBus (s : State) (b : Bus) (rs : List RegIdx) (bs : List Byte) :
    (s.setBus b).loadScratch rs bs = (s.loadScratch rs bs).setBus b := by
  induction rs generalizing s bs with
  | nil => rfl
  | cons r rs ih =>
    cases bs with
    | nil => rfl
    | cons v bs => exact ih (s.setReg r v).advancePc bs

theorem State.fetched_setBus (s : State) (b : Bus) (ops : List Byte) :
    (s.setBus b).fetched ops = (s.fetched ops).setBus b :=
  s.advancePc.loadScratch_setBus b _ ops

theorem State.dropByte_setBus (s : State) (b : Bus) : (s.setBus b).dropByte = s.dropByte.setBus b := rfl

theorem State.dropWord_setBus (s : State) (b : Bus) : (s.setBus b).dropWord = s.dropWord.setBus b := rfl

theorem State.pushWord_setBus (s : State) (b : Bus) (v : Word) :
    (s.setBus b).pushWord v = (s.pushWord v).setBus (b.writeWord stackWordOrder s.sp v) := rfl

theorem callHandler_setBus (s : State) (b : Bus) :
    callHandler (s.setBus b) = (callHandler s).setBus (b.writeWord stackWordOrder s.sp s.destPair) := by
  rw [callHandler, State.pushWord_setBus]
  rfl

section SameReads

variable {s : State} {b : Bus}

theorem State.readByte_setBus_congr (hb : b.read = s.bus.read) (a : Word) :
    (s.setBus b).readByte a = s.readByte a :=
  congrFun hb a

theorem State.readWord_setBus_congr (hb : b.read = s.bus.read) (a : Word) :
    (s.setBus b).readWord a = s.readWord a := by
  simp only [State.readWord, stackWordOrder, Bus.readWord, State.bus_setBus, hb]

theorem State.bytesAt_setBus (hb : b.read = s.bus.read) (a : Word) (n : Nat) :
    (s.setBus b).bytesAt a n = s.bytesAt a n := by
  induction n generalizing a with
  | zero => rfl
  | succ n ih => rw [State.bytesAt, State.bytesAt, ih, State.readByte_setBus_congr hb]

theorem State.fetchInstr_setBus (hb : b.read = s.bus.read) : (s.setBus b).fetchInstr = s.fetchInstr := by
  have hpc : (s.setBus b).pc = s.pc := rfl
  simp only [State.fetchInstr, State.bytesAt_setBus hb, hpc, State.readByte_setBus_congr hb]

theorem loadHandler_setBus (hb : b.read = s.bus.read) :
    loadHandler (s.setBus b) = (loadHandler s).setBus b := by
  rw [loadHandler, State.readByte_setBus_congr hb]
  rfl

theorem popHandler_setBus (hb : b.read = s.bus.read) :
    popHandler (s.setBus b) = (popHandler s).setBus b := by
  have hdrop : b.read = s.dropByte.bus.read := hb
  simp only [popHandler, State.dropByte_setBus, State.readByte_setBus_congr hdrop]
  rfl

theorem retHandler_setBus (hb : b.read = s.bus.read) :
    retHandler (s.setBus b) = (retHandler s).setBus b := by
  have hdrop : b.read = s.dropWord.bus.read := hb
  simp only [retHandler, State.dropWord_setBus, State.readWord_setBus_congr hdrop]
  rfl

/-- The three reading handlers take the same value from either bus; the three storing ones compute no register
from the bus, so a dropped write leaves no trace in the registers. -/
theorem reg_handlerOf_setBus (hb : b.read = s.bus.read) (i : Instr) (r : RegIdx) :
    (handlerOf i (s.setBus b)).reg r = (handlerOf i s).reg r := by
  cases i with
  | load => rw [handlerOf, loadHandler_setBus hb, State.reg_setBus]
  | pop => rw [handlerOf, popHandler_setBus hb, State.reg_setBus]
  | ret => rw [handlerOf, retHandler_setBus hb, State.reg_setBus]
  | store => rfl
  | push => rfl
  | call => rw [handlerOf, callHandler_setBus, State.reg_setBus]
  | _ => rw [registersOnly_handlerOf rfl, State.reg_setBus]

theorem reg_exec_setBus (hb : b.read = s.bus.read) {i : Instr} {t t' : State}
    (e : exec i s = .next t) (e' : exec i (s.setBus b) = .next t') (r : RegIdx) : t'.reg r = t.reg r := by
  have hruns : (s.setBus b).runs i.predicated = s.runs i.predicated := rfl
  cases hr : s.runs i.predicated with
  | true =>
    rw [exec_of_runs hr] at e
    rw [exec_of_runs (hruns.trans hr), State.fetched_setBus] at e'
    cases e; cases e'
    exact reg_handlerOf_setBus (by rw [State.bus_fetched, hb]) i r
  | false =>
    rw [exec_of_skipped hr] at e
    rw [exec_of_skipped (hruns.trans hr), State.fetched_setBus] at e'
    cases e; cases e'
    rfl

/-- Beside two buses that read alike, whatever their writability and extent, a step leaves the same registers. -/
theorem reg_step_setBus (hb : b.read = s.bus.read) {t t' : State}
    (e : step s = .next t) (e' : step (s.setBus b) = .next t') (r : RegIdx) : t'.reg r = t.reg r := by
  have hhalted : (s.setBus b).halted = s.halted := rfl
  cases hh : s.halted with
  | true =>
    rw [step_of_halted hh] at e
    rw [step_of_halted (hhalted.trans hh)] at e'
    cases e; cases e'
    rfl
  | false =>
    rw [step_of_running hh] at e
    rw [step_of_running (hhalted.trans hh), State.fetchInstr_setBus hb] at e'
    exact reg_exec_setBus hb e e' r

end SameReads

/-! ### The statements -/

/-- Settles O18: `Bus.read` does not look at the writability, so the last clause is `reg_step_setBus`. -/
theorem readOnlyBusIsUnchangedAndUnseen : Obligations.ReadOnlyBusIsUnchangedAndUnseen := by
  refine ⟨Bus.write_readOnly, fun s t => bus_step_readOnly, fun s t t' w e e' r => ?unseen⟩
  case unseen =>
    have hread : ({ s.bus with writable := w } : Bus).read = s.bus.read := rfl
    exact reg_step_setBus hread e e' r

/-- Settles O19. -/
theorem outOfRangeAccess : Obligations.OutOfRangeAccess := by
  refine ⟨fun s a v ha => ⟨s.bus.read_outside a ha, ?discarded⟩, fun s hs => ?extent, step_answers_next⟩
  case discarded => exact congrArg s.setBus (s.bus.write_outside a v ha)
  case extent =>
    obtain ⟨-, hsize, -⟩ := (Bus.wf_iff s.bus).1 hs
    exact hsize

end Sys2Proof.Machine
end

section
/-! PROOFS. The step cycle (spec/40_step_cycle.md R100 to R107): the fields of an opcode byte as numbers, what the
fetch reads and leaves, and the two ways a step does less than run a handler: HALT set, and a predicate that fails. -/

namespace Sys2Proof

/-! ### The fields of an opcode byte as numbers (R103) -/

theorem opcodeArgc_eq_div (op : Byte) : opcodeArgc op = op.toNat / 64 := by
  have hop : op.toNat < 256 := op.isLt
  simp only [opcodeArgc, BitVec.extractLsb'_toNat, Nat.shiftRight_eq_div_pow]
  omega

theorem opcodePredicated_eq_decide (op : Byte) : opcodePredicated op = decide (op.toNat / 32 % 2 = 1) := by
  simp only [opcodePredicated, BitVec.getLsbD, Nat.testBit_eq_decide_div_mod_eq, Nat.reducePow]

theorem toNat_opcodeSelector (op : Byte) : (opcodeSelector op).toNat = op.toNat % 32 := by
  simp [opcodeSelector]

/-! ### The instruction of an opcode byte -/

@[simp] theorem operands_decodeOpcode (op : Byte) (ops : List Byte) : (decodeOpcode op ops).operands = ops :=
  (fields_instrOfSelector _ _ ops).right

@[simp] theorem predicated_decodeOpcode (op : Byte) (ops : List Byte) :
    (decodeOpcode op ops).predicated = opcodePredicated op :=
  (fields_instrOfSelector _ _ ops).left

@[simp] theorem selector_decodeOpcode (op : Byte) (ops : List Byte) :
    (decodeOpcode op ops).selector = opcodeSelector op :=
  selector_instrOfSelector _ _ ops

/-- The decoder fails only where the list is too short for the opcode byte. -/
theorem decode_cons_of_le {op : Byte} {bs : List Byte} (h : opcodeArgc op ≤ bs.length) :
    decode (op :: bs) = .ok (decodeOpcode op (bs.take (opcodeArgc op)), bs.drop (opcodeArgc op)) := by
  rw [decode, if_neg (Nat.not_lt.2 h)]

/-- Settles O3: three bytes are enough for every opcode byte, and each field is its number (R103). -/
theorem opcodeFieldsDecode : Obligations.OpcodeFieldsDecode := by
  intro op b1 b2 b3
  have hlen : opcodeArgc op ≤ [b1, b2, b3].length := opcodeArgc_le op
  refine ⟨_, _, decode_cons_of_le hlen, ?argc, ?predicated, ?selector, ?bytes⟩
  case argc => rw [operands_decodeOpcode, List.length_take_of_le hlen, opcodeArgc_eq_div]
  case predicated => rw [predicated_decodeOpcode, opcodePredicated_eq_decide]
  case selector => rw [selector_decodeOpcode, toNat_opcodeSelector]
  case bytes => rw [operands_decodeOpcode, List.take_append_drop]

namespace Machine

/-! ### A halted core (R101) -/

/-- A run goes on from the state its first step answers. -/
theorem run_succ_of_step {s t : State} (h : step s = .next t) (n : Nat) :
    Host.Core.run core (n + 1) s = Host.Core.run core n t := by
  have hcore : core.step s = .next t := h
  simp only [Host.Core.run, hcore]

theorem run_of_halted {s : State} (h : s.halted = true) (n : Nat) : Host.Core.run core n s = .next s := by
  induction n with
  | zero => rfl
  | succ n ih => rw [run_succ_of_step (step_of_halted h), ih]

/-- Settles O6: HALT is a bit of the register file, so another bus leaves the core halted. -/
theorem haltedStepsAreIdle : Obligations.HaltedStepsAreIdle := by
  intro s hs
  refine ⟨step_of_halted hs, fun b => ?otherBus, run_of_halted hs⟩
  case otherBus =>
    have hb : (s.setBus b).halted = true := hs
    exact step_of_halted hb

/-! ### What the fetch reads (R102 to R104) -/

@[simp] theorem State.length_bytesAt (s : State) (a : Word) (n : Nat) : (s.bytesAt a n).length = n := by
  induction n generalizing a with
  | zero => rfl
  | succ n ih => rw [State.bytesAt, List.length_cons, ih]

/-- Byte `k` of a stretch of the bus, the address taken modulo 65536 (R59). -/
theorem State.getElem?_bytesAt (s : State) (a : Word) {n k : Nat} (hk : k < n) :
    (s.bytesAt a n)[k]? = some (s.readByte (a + BitVec.ofNat 16 k)) := by
  induction n generalizing a k with
  | zero => exact absurd hk (Nat.not_lt_zero k)
  | succ n ih =>
    cases k with
    | zero => simp [State.bytesAt]
    | succ k =>
      rw [State.bytesAt, List.getElem?_cons_succ, ih _ (Nat.lt_of_succ_lt_succ hk), BitVec.add_assoc,
        ← BitVec.ofNat_add, Nat.add_comm 1 k]

theorem State.operands_fetchInstr (s : State) :
    s.fetchInstr.operands = s.bytesAt (s.pc + 1#16) (opcodeArgc (s.readByte s.pc)) :=
  operands_decodeOpcode _ _

theorem State.fetchInstr_eq_decodeOpcode (s : State) :
    s.fetchInstr = decodeOpcode (s.readByte s.pc) s.fetchInstr.operands := by
  rw [State.operands_fetchInstr, State.fetchInstr]

theorem State.length_operands_fetchInstr (s : State) :
    s.fetchInstr.operands.length = opcodeArgc (s.readByte s.pc) := by
  rw [State.operands_fetchInstr, State.length_bytesAt]

theorem State.getElem?_operands_fetchInstr (s : State) {k : Nat} (hk : k < s.fetchInstr.operands.length) :
    s.fetchInstr.operands[k]? = some (s.readByte (s.pc + BitVec.ofNat 16 (1 + k))) := by
  rw [State.length_operands_fetchInstr] at hk
  rw [State.operands_fetchInstr, State.getElem?_bytesAt s _ hk, BitVec.add_assoc, ← BitVec.ofNat_add]

/-- R80: the hardware fetches well-formed instructions alone. -/
theorem State.fetchInstr_wellFormed (s : State) : s.fetchInstr.WellFormed = true := by
  rw [Instr.WellFormed, decide_eq_true_eq, State.length_operands_fetchInstr]
  exact opcodeArgc_le _

/-! ### What the fetch leaves -/

theorem pairIndex_ne_pcIndex {i : RegIdx} (h0 : i ≠ pcIndex) (h1 : i ≠ 1#4) : pairIndex i ≠ pcIndex := by
  revert i; decide

theorem State.sameRegistersBut_fetched (s : State) (ops : List Byte) :
    SameRegistersBut s (s.fetched ops) [pcIndex, 1#4, a0Index, a1Index, a2Index] := by
  intro i hi
  obtain ⟨hpcLow, hpcHigh, ha0, ha1, ha2⟩ :
      i ≠ pcIndex ∧ i ≠ 1#4 ∧ i ≠ a0Index ∧ i ≠ a1Index ∧ i ≠ a2Index := by simpa using hi
  obtain ⟨-, -, -, -, -, hother⟩ := s.fetched_spec ops
  exact hother i (pairIndex_ne_pcIndex hpcLow hpcHigh) ha0 ha1 ha2

/-- All that the fetch of a well-formed instruction leaves, in the words of the statements (R102, R104). -/
theorem State.fetched_of_wellFormed (s : State) {i : Instr} (hi : i.WellFormed = true) :
    (s.fetched i.operands).pc = s.pc + BitVec.ofNat 16 (1 + i.operands.length) ∧
      (s.fetched i.operands).reg a0Index = i.operands.getD 0 (s.reg a0Index) ∧
      (s.fetched i.operands).reg a1Index = i.operands.getD 1 (s.reg a1Index) ∧
      (s.fetched i.operands).reg a2Index = i.operands.getD 2 (s.reg a2Index) ∧
      SameRegistersBut s (s.fetched i.operands) [pcIndex, 1#4, a0Index, a1Index, a2Index] ∧
      (s.fetched i.operands).bus = s.bus := by
  have hlen : i.operands.length ≤ 3 := of_decide_eq_true hi
  obtain ⟨hbus, hpc, ha0, ha1, ha2, -⟩ := s.fetched_spec i.operands
  rw [Nat.min_eq_right hlen] at hpc
  exact ⟨hpc, ha0, ha1, ha2, s.sameRegistersBut_fetched i.operands, hbus⟩

/-! ### The predicate test (R105) -/

theorem State.runs_eq_false_iff (s : State) (p : Bool) : s.runs p = false ↔ p = true ∧ s.flag .cond = false := by
  simp [State.runs]

/-! ### The statements about the fetch -/

/-- Settles O8: the instruction that the fetch reads is well-formed, so the fetch takes all its operand bytes. -/
theorem fetchEffect : Obligations.FetchEffect := by
  intro s
  obtain ⟨hpc, ha0, ha1, ha2, hother, hbus⟩ := s.fetched_of_wellFormed s.fetchInstr_wellFormed
  have hargc : s.fetchInstr.operands.length = (s.readByte s.pc).toNat / 64 :=
    s.length_operands_fetchInstr.trans (opcodeArgc_eq_div _)
  exact ⟨s.fetchInstr_eq_decodeOpcode, hargc, fun k => s.getElem?_operands_fetchInstr, hpc, ha0, ha1, ha2, hother,
    hbus, step_of_running, exec_of_skipped⟩

/-- Settles O9: the predicate test fails, so the fetched state is the answer (`exec_of_skipped`), whatever the
handler. -/
theorem skippedInstructionOnlyFetches : Obligations.SkippedInstructionOnlyFetches := by
  intro i s hi hp hcond
  have hskip : s.runs i.predicated = false := (s.runs_eq_false_iff _).2 ⟨hp, hcond⟩
  exact ⟨s.fetched i.operands, exec_of_skipped hskip, s.fetched_of_wellFormed hi⟩

end Machine

end Sys2Proof
end

section
/-! PROOFS. The predicate instructions (spec/41_compare_predicate.md R122, R123): a byte is its eight flags, so each of
the two masked comparisons is a statement about flags; and the frame of an instruction that assigns one flag. -/

namespace Sys2Proof.Machine

/-! ### The instruction of a selector (R88) -/

/-- The decoder passes the predicated bit and the operand bytes on as they are, whatever the selector. -/
theorem selects_of_instrOfSelector {sel : BitVec 5} {mk : Bool → List Byte → Instr}
    (h : ∀ p operands, instrOfSelector sel p operands = mk p operands) : Selects sel mk := by
  intro op operands hop
  rw [decodeOpcode, hop, h]

/-! ### A byte flag by flag (R28) -/

/-- R28: every bit of a byte belongs to a flag. -/
theorem Flag.exists_bit_eq {n : Nat} (hn : n < 8) : ∃ f : Flag, f.bit = n := by
  interval_cases n
  exacts [⟨.carry, rfl⟩, ⟨.zero, rfl⟩, ⟨.neg, rfl⟩, ⟨.lt, rfl⟩, ⟨.eq, rfl⟩, ⟨.gt, rfl⟩, ⟨.halt, rfl⟩, ⟨.cond, rfl⟩]

theorem byte_eq_iff_forall_flag (x y : Byte) : x = y ↔ ∀ f : Flag, x.getLsbD f.bit = y.getLsbD f.bit := by
  refine ⟨fun h f => by rw [h], fun h => BitVec.eq_of_getLsbD_eq fun n hn => ?bit⟩
  case bit =>
    obtain ⟨f, rfl⟩ := Flag.exists_bit_eq hn
    exact h f

/-- R122: two bytes have a common bit exactly when some flag is in both. -/
theorem and_ne_zero_iff_exists_flag (x m : Byte) :
    x &&& m ≠ 0#8 ↔ ∃ f : Flag, x.getLsbD f.bit = true ∧ m.getLsbD f.bit = true := by
  simp [byte_eq_iff_forall_flag]

/-- R123: a byte covers a mask exactly when it has every flag of the mask. -/
theorem and_eq_mask_iff_forall_flag (x m : Byte) :
    x &&& m = m ↔ ∀ f : Flag, m.getLsbD f.bit = true → x.getLsbD f.bit = true := by
  simp [byte_eq_iff_forall_flag]

/-! ### The frame of a flag assignment (R29) -/

theorem State.sameFlagsBut_setFlag (s : State) (f : Flag) (b : Bool) : SameFlagsBut s (s.setFlag f b) [f] := by
  intro g hg
  rw [State.flag_setFlag, if_neg (List.ne_of_not_mem_cons hg).symm]

theorem State.sameRegistersBut_setFlag (s : State) (f : Flag) (b : Bool) :
    SameRegistersBut s (s.setFlag f b) [flagIndex] :=
  fun i hi => s.reg_setFlag_other f b i (List.ne_of_not_mem_cons hi)

theorem sameMemoryBut_of_bus_eq {s t : State} (h : t.bus = s.bus) (as : List Word) : SameMemoryBut s t as :=
  ⟨congrArg Bus.size h, congrArg Bus.writable h, fun a _ => congrArg (fun b => b.read a) h⟩

/-- What an instruction does whose handler assigns one flag: that flag takes the value, and the rest is as the fetch
leaves it. -/
theorem exec_of_handler_setFlag {i : Instr} {s : State} {f : Flag} {b : Bool} (hr : s.runs i.predicated = true)
    (hh : handlerOf i (s.fetched i.operands) = (s.fetched i.operands).setFlag f b) :
    ∃ t, exec i s = .next t ∧ t.flag f = b ∧ SameFlagsBut (s.fetched i.operands) t [f] ∧
      SameRegistersBut (s.fetched i.operands) t [flagIndex] ∧ SameMemoryBut s t [] := by
  have hbus : ((s.fetched i.operands).setFlag f b).bus = s.bus := by rw [State.bus_setFlag, State.bus_fetched]
  refine ⟨(s.fetched i.operands).setFlag f b, ?runs, ?value, State.sameFlagsBut_setFlag _ f b,
    State.sameRegistersBut_setFlag _ f b, sameMemoryBut_of_bus_eq hbus []⟩
  case runs => rw [exec_of_runs hr, hh]
  case value => rw [State.flag_setFlag, if_pos rfl]

/-! ### The statement -/

/-- Settles O27: each handler assigns COND alone (`exec_of_handler_setFlag`), and its value is a comparison of masked
bytes, read flag by flag (`and_ne_zero_iff_exists_flag`, `and_eq_mask_iff_forall_flag`). -/
theorem anyAllResult : Obligations.AnyAllResult := by
  refine ⟨selects_of_instrOfSelector fun _ _ => rfl, selects_of_instrOfSelector fun _ _ => rfl,
    fun p ops s hr => ⟨?any, ?all⟩⟩
  case any =>
    obtain ⟨t, ht, hcond, hframe⟩ := exec_of_handler_setFlag (i := .any p ops) hr rfl
    exact ⟨t, ht, by rw [hcond, bne_iff_ne]; exact and_ne_zero_iff_exists_flag _ _, hframe⟩
  case all =>
    obtain ⟨t, ht, hcond, hframe⟩ := exec_of_handler_setFlag (i := .all p ops) hr rfl
    exact ⟨t, ht, by rw [hcond, beq_iff_eq]; exact and_eq_mask_iff_forall_flag _ _, hframe⟩

end Sys2Proof.Machine
end

section
/-! PROOFS. The left shift by a register (spec/46_shift_imm.md R170): the shifted byte as a number, and the frame of an
instruction that writes one register. -/

namespace Sys2Proof.Machine

/-! ### The shifted byte as a number -/

theorem shiftLeft_of_ge {n : Nat} (x : Byte) (hn : n ≥ 8) : shiftLeft x n = 0#8 :=
  if_pos hn

/-- R170: one formula for every amount, because `2 ^ n` is a multiple of 256 from `n = 8` on. -/
theorem toNat_shiftLeft (x : Byte) (n : Nat) : (shiftLeft x n).toNat = x.toNat * 2 ^ n % 256 := by
  by_cases hn : n ≥ 8
  · have hdvd : 256 ∣ x.toNat * 2 ^ n := (pow_dvd_pow 2 hn).mul_left x.toNat
    rw [shiftLeft_of_ge x hn, Nat.mod_eq_zero_of_dvd hdvd]
    rfl
  · rw [shiftLeft, if_neg hn, BitVec.toNat_shiftLeft, Nat.shiftLeft_eq]

/-! ### The frame of a register write -/

theorem State.sameRegistersBut_setReg (s : State) (d : RegIdx) (v : Byte) :
    SameRegistersBut s (s.setReg d v) [d] := by
  intro i hi
  rw [State.reg_setReg, if_neg (List.ne_of_not_mem_cons hi).symm]

/-- What an instruction does whose handler writes one register: that register takes the value, and the rest is as the
fetch leaves it. -/
theorem exec_of_handler_setReg {i : Instr} {s : State} {d : RegIdx} {v : Byte} (hr : s.runs i.predicated = true)
    (hh : handlerOf i (s.fetched i.operands) = (s.fetched i.operands).setReg d v) :
    ∃ t, exec i s = .next t ∧ WritesByte s (s.fetched i.operands) t d v := by
  have hbus : ((s.fetched i.operands).setReg d v).bus = s.bus := by rw [State.bus_setReg, State.bus_fetched]
  refine ⟨(s.fetched i.operands).setReg d v, ?runs, ?value, State.sameRegistersBut_setReg _ d v,
    sameMemoryBut_of_bus_eq hbus []⟩
  case runs => rw [exec_of_runs hr, hh]
  case value => rw [State.reg_setReg, if_pos rfl]

/-! ### The statement -/

/-- Settles O43: the handler writes the destination alone (`exec_of_handler_setReg`), and the byte it writes is
`toNat_shiftLeft`'s for every amount. -/
theorem shlResult : Obligations.ShlResult := by
  refine ⟨selects_of_instrOfSelector fun _ _ => rfl, fun p ops s hr => ?shifted⟩
  case shifted =>
    obtain ⟨t, ht, hwrites⟩ := exec_of_handler_setReg (i := .shl p ops) hr rfl
    exact ⟨t, _, ht, hwrites, toNat_shiftLeft _ _, shiftLeft_of_ge _⟩

end Sys2Proof.Machine
end

section
/-! PROOFS. The flag control instructions (spec/47_flag_control.md R180, R181): a masked write of the flag byte, flag
by flag, and its frame; and the halt that a mask with the HALT bit brings about. -/

namespace Sys2Proof.Machine

/-! ### A masked write of the flag byte (R29) -/

/-- R180: the flags of the mask become 1. -/
theorem State.flag_setMask_eq_ite (s : State) (m : Byte) (f : Flag) :
    (s.setMask m).flag f = if m.getLsbD f.bit = true then true else s.flag f := by
  rw [State.flag_setMask]
  split
  case isTrue hm => rw [hm, Bool.or_true]
  case isFalse hm => rw [Bool.eq_false_of_not_eq_true hm, Bool.or_false]

/-- R181: the flags of the mask become 0. -/
theorem State.flag_clearMask_eq_ite (s : State) (m : Byte) (f : Flag) :
    (s.clearMask m).flag f = if m.getLsbD f.bit = true then false else s.flag f := by
  rw [State.flag_clearMask]
  split
  case isTrue hm => rw [hm, Bool.not_true, Bool.and_false]
  case isFalse hm => rw [Bool.eq_false_of_not_eq_true hm, Bool.not_false, Bool.and_true]

theorem State.sameRegistersBut_setMask (s : State) (m : Byte) : SameRegistersBut s (s.setMask m) [flagIndex] :=
  s.sameRegistersBut_setReg flagIndex (s.flags ||| m)

theorem State.sameRegistersBut_clearMask (s : State) (m : Byte) :
    SameRegistersBut s (s.clearMask m) [flagIndex] :=
  s.sameRegistersBut_setReg flagIndex (s.flags &&& ~~~m)

/-- R34: the halted state is the HALT bit and nothing else, so a mask with that bit halts the core. -/
theorem State.halted_setMask (s : State) {m : Byte} (hm : m.getLsbD Flag.halt.bit = true) :
    (s.setMask m).halted = true := by
  rw [State.halted, State.flag_setMask_eq_ite, if_pos hm]

/-! ### The statement -/

/-- Settles O47: each handler is one masked write of the flag byte, with the mask that the fetch leaves in A0; after a
`set` of HALT the core is idle (`run_of_halted`). -/
theorem setClearResults : Obligations.SetClearResults := by
  refine ⟨selects_of_instrOfSelector fun _ _ => rfl, selects_of_instrOfSelector fun _ _ => rfl,
    fun p ops s hr => ?results⟩
  case results =>
    have hbus : (s.fetched ops).bus = s.bus := s.bus_fetched ops
    refine ⟨?set, ?clear⟩
    case set =>
      exact ⟨(s.fetched ops).setMask (s.fetched ops).arg, exec_of_runs hr, State.flag_setMask_eq_ite _ _,
        State.sameRegistersBut_setMask _ _, sameMemoryBut_of_bus_eq hbus [],
        fun hhalt => run_of_halted (State.halted_setMask _ hhalt)⟩
    case clear =>
      exact ⟨(s.fetched ops).clearMask (s.fetched ops).arg, exec_of_runs hr, State.flag_clearMask_eq_ite _ _,
        State.sameRegistersBut_clearMask _ _, sameMemoryBut_of_bus_eq hbus []⟩

end Sys2Proof.Machine
end

section
/-! PROOFS. Creation (spec/70_reset_and_hazards.md R230): what the randomised mode forces, written with the operations
that write `pc` and clear HALT, so that their laws give the state of a new core. -/

namespace Sys2Proof.Machine

/-! ### Writes that leave `pc` or the flag byte (R24, R29) -/

/-- R24: a write to one pair leaves the registers of every other pair. -/
theorem State.reg_setPair_other (s : State) {i j : RegIdx} (v : Word) (h : pairIndex i ≠ pairIndex j) :
    (s.setPair j v).reg i = s.reg i :=
  s.sameRegistersBut_setPair j v i fun hmem => by
    obtain rfl | rfl : i = pairIndex j ∨ i = pairIndex j + 1#4 := by simpa [pairRegisters] using hmem
    · exact h (pairIndex_pairIndex j)
    · exact h (pairIndex_succ j)

/-- R28: the flag byte is outside the pair of `pc`. -/
theorem State.flags_setPair_pc (s : State) (v : Word) : (s.setPair pcIndex v).flags = s.flags :=
  s.reg_setPair_other v (by decide)

theorem State.pc_setFlag (s : State) (f : Flag) (b : Bool) : (s.setFlag f b).pc = s.pc := by
  have hpair : pairIndex flagIndex ≠ pcIndex := by decide
  cases b
  case false => exact s.pc_setReg flagIndex (s.flags &&& ~~~f.mask) hpair
  case true => exact s.pc_setReg flagIndex (s.flags ||| f.mask) hpair

/-! ### The zero-initialised mode -/

theorem State.reg_create_zeroInitialised (b : Bus) (i : RegIdx) :
    (State.create .zeroInitialised b).reg i = 0#8 :=
  Vector.getElem_replicate i.isLt

/-! ### The randomised mode -/

/-- R230: the randomised creation is the draw with two writes after it, 0 to `pc` and 0 to HALT. -/
theorem State.create_randomised (draw : Vector Byte 16) (b : Bus) :
    State.create (.randomised draw) b = (State.setPair ⟨draw, b⟩ pcIndex 0#16).setFlag .halt false := by
  have hmask : ~~~Flag.halt.mask = 0xBF#8 := by decide
  simp only [State.setFlag, Bool.false_eq_true, if_false, State.clearMask, State.flags_setPair_pc, hmask]
  rfl

theorem State.reg_create_randomised (draw : Vector Byte 16) (b : Bus) {i : RegIdx} (hpc : pairIndex i ≠ pcIndex)
    (hflag : i ≠ flagIndex) : (State.create (.randomised draw) b).reg i = draw[i.toNat]'i.isLt := by
  rw [State.create_randomised, State.reg_setFlag_other _ _ _ _ hflag, State.reg_setPair_other _ _ hpc]
  rfl

theorem State.flag_create_randomised (draw : Vector Byte 16) (b : Bus) {f : Flag} (hf : f ≠ .halt) :
    (State.create (.randomised draw) b).flag f = draw[4].getLsbD f.bit := by
  rw [State.create_randomised, State.flag_setFlag, if_neg hf.symm, State.flag, State.flags_setPair_pc]
  rfl

/-! ### Either mode -/

theorem State.pc_create (mode : ResetMode) (b : Bus) : (State.create mode b).pc = 0#16 := by
  cases mode
  case zeroInitialised => simp only [State.pc, State.pair, State.reg_create_zeroInitialised]; rfl
  case randomised draw => rw [State.create_randomised, State.pc_setFlag, State.pc, State.pair_setPair_same]

theorem State.halted_create (mode : ResetMode) (b : Bus) : (State.create mode b).halted = false := by
  cases mode
  case zeroInitialised => rw [State.halted, State.flag, State.flags, State.reg_create_zeroInitialised]; rfl
  case randomised draw => rw [State.create_randomised, State.halted, State.flag_setFlag, if_pos rfl]

/-! ### The statement -/

/-- Settles O12: a clause for each mode, then what both modes give; the bus of a new core and the host's `create` are
those of the definitions. -/
theorem creationSetsRegisters : Obligations.CreationSetsRegisters :=
  ⟨State.reg_create_zeroInitialised, fun draw b _ => State.reg_create_randomised draw b,
    fun draw b _ => State.flag_create_randomised draw b,
    fun mode b => ⟨State.pc_create mode b, State.halted_create mode b, rfl⟩, fun _ _ => rfl⟩

end Sys2Proof.Machine
end

section
/-! PROOFS. The frame of the 32 handlers (spec/10_state.md R32, spec/20_memory.md R55): which registers, flags and
bytes each may change. The frame of `exec`, and what every step keeps, follow from it. -/

namespace Sys2Proof.Machine

/-! ### The relations "unchanged but for" -/

theorem SameRegistersBut.refl (u : State) (rs : List RegIdx) : SameRegistersBut u u rs := fun _ _ => rfl

theorem SameRegistersBut.mono {u t : State} {rs rs' : List RegIdx} (h : SameRegistersBut u t rs) (hsub : rs ⊆ rs') :
    SameRegistersBut u t rs' :=
  fun i hi => h i fun hmem => hi (hsub hmem)

/-- Two writes in a row; the registers of the later one are listed first, as `destRegisters` lists them. -/
theorem SameRegistersBut.trans {u v t : State} {rs rs' : List RegIdx} (h : SameRegistersBut u v rs)
    (h' : SameRegistersBut v t rs') : SameRegistersBut u t (rs' ++ rs) := by
  intro i hi
  obtain ⟨hlater, hfirst⟩ : i ∉ rs' ∧ i ∉ rs := by simpa using hi
  rw [h' i hlater, h i hfirst]

/-- R28: the flags are register 4. -/
theorem SameRegistersBut.sameFlagsBut {u t : State} {rs : List RegIdx} (h : SameRegistersBut u t rs)
    (hflag : flagIndex ∉ rs) (fs : List Flag) : SameFlagsBut u t fs :=
  fun f _ => congrArg (fun b : Byte => b.getLsbD f.bit) (h flagIndex hflag)

theorem SameFlagsBut.refl (u : State) (fs : List Flag) : SameFlagsBut u u fs := fun _ _ => rfl

theorem sameMemoryBut_writeByte (s : State) (a : Word) (v : Byte) : SameMemoryBut s (s.writeByte a v) [a] := by
  refine ⟨s.bus.size_write a v, s.bus.writable_write a v, fun a' ha' => ?read⟩
  case read =>
    have hne : a ≠ a' := (List.ne_of_not_mem_cons ha').symm
    exact (s.bus.read_write a a' v).trans (if_neg fun h => hne h.left)

theorem sameMemoryBut_writeWord (s : State) (a v : Word) : SameMemoryBut s (s.writeWord a v) [a, a + 1#16] := by
  refine ⟨s.bus.size_writeWord _ a v, s.bus.writable_writeWord _ a v, fun a' ha' => ?read⟩
  case read =>
    obtain ⟨hlow, hhigh⟩ : a' ≠ a ∧ a' ≠ a + 1#16 := by simpa using ha'
    exact s.bus.read_writeWord_other _ a v a' hlow hhigh

/-- The memory frame looks at the bus alone. -/
theorem SameMemoryBut.congr {s s' t t' : State} {as : List Word} (h : SameMemoryBut s t as) (hs : s'.bus = s.bus)
    (ht : t'.bus = t.bus) : SameMemoryBut s' t' as := by
  simpa only [SameMemoryBut, State.readByte, hs, ht] using h

/-! ### Registers -/

/-- The instructions whose handler writes flags by name, by a mask or by a flag updater (R32). -/
def assignsFlags : Instr → Bool
  | .cmp _ _ | .any _ _ | .all _ _ | .set _ _ | .clear _ _ => true
  | .and _ _ | .or _ _ | .xor _ _ | .not _ _ | .neg _ _ => true
  | .add _ _ | .sub _ _ | .rsub _ _ | .inc _ _ | .dec _ _ => true
  | _ => false

theorem State.sameRegistersBut_writeLogic (s : State) (v : Byte) :
    SameRegistersBut s (s.writeLogic v) [s.dest, flagIndex] := by
  intro i hi
  obtain ⟨hdest, hflag⟩ : i ≠ s.dest ∧ i ≠ flagIndex := by simpa using hi
  obtain ⟨-, hreg, -⟩ := s.writeLogic_spec v
  rw [hreg i hflag, if_neg hdest]

theorem State.sameRegistersBut_writeArith (s : State) (n : Nat) :
    SameRegistersBut s (s.writeArith n) [s.dest, flagIndex] := by
  intro i hi
  obtain ⟨hdest, hflag⟩ : i ≠ s.dest ∧ i ≠ flagIndex := by simpa using hi
  obtain ⟨-, hreg, -⟩ := s.writeArith_spec n
  rw [hreg i hflag, if_neg hdest]

theorem sameRegistersBut_cmpHandler (u : State) : SameRegistersBut u (cmpHandler u) [flagIndex] := by
  intro i hi
  have hflag : i ≠ flagIndex := List.ne_of_not_mem_cons hi
  obtain ⟨-, hcompare, -⟩ := u.compareFlags_spec u.destReg u.srcReg
  obtain ⟨-, hlogic, -⟩ := (u.compareFlags u.destReg u.srcReg).logicFlags_spec u.srcReg
  rw [cmpHandler, hlogic i hflag, hcompare i hflag]

/-- An instruction that writes no flag changes its destination registers alone (D5), register 4 among them only where
it is a destination. -/
theorem sameRegistersBut_handlerOf {i : Instr} (hi : assignsFlags i = false) (u : State) :
    SameRegistersBut u (handlerOf i u) (destRegisters i u) := by
  cases i with
  | nop | store => exact .refl u _
  | swap =>
    exact ((u.sameRegistersBut_setReg u.dest u.srcReg).trans (State.sameRegistersBut_setReg _ u.src u.destReg)).mono
      (by simp [destRegisters])
  | rev | zeros | ones | mov | load | shl | shr | shlimm | shrimm => exact u.sameRegistersBut_setReg u.dest _
  | mov16 => exact u.sameRegistersBut_setPair u.dest _
  | call =>
    have hpush : SameRegistersBut u (u.pushWord u.destPair) (pairRegisters spIndex) :=
      u.sameRegistersBut_setPair spIndex _
    exact hpush.trans (State.sameRegistersBut_setPair _ u.dest _)
  | ret =>
    have hdrop : SameRegistersBut u u.dropWord (pairRegisters spIndex) := u.sameRegistersBut_setPair spIndex _
    exact hdrop.trans (State.sameRegistersBut_setPair _ u.dest _)
  | push => exact u.sameRegistersBut_setPair spIndex _
  | pop =>
    have hdrop : SameRegistersBut u u.dropByte (pairRegisters spIndex) := u.sameRegistersBut_setPair spIndex _
    exact hdrop.trans (State.sameRegistersBut_setReg _ u.dest _)
  | _ => exact absurd hi (by simp [assignsFlags])

/-- An instruction that writes flags changes, beside its destination registers, register 4. -/
theorem sameRegistersBut_handlerOf_of_assignsFlags {i : Instr} (hi : assignsFlags i = true) (u : State) :
    SameRegistersBut u (handlerOf i u) (destRegisters i u ++ [flagIndex]) := by
  cases i with
  | cmp => exact sameRegistersBut_cmpHandler u
  | any | all => exact u.sameRegistersBut_setFlag .cond _
  | set => exact u.sameRegistersBut_setMask u.arg
  | clear => exact u.sameRegistersBut_clearMask u.arg
  | and | or | xor | not | neg => exact u.sameRegistersBut_writeLogic _
  | add | sub | rsub | inc | dec => exact u.sameRegistersBut_writeArith _
  | _ => exact absurd hi (by simp [assignsFlags])

/-! ### Flags -/

theorem mem_maskFlags (m : Byte) (f : Flag) : f ∈ maskFlags m ↔ m.getLsbD f.bit = true := by
  have hall : f ∈ [Flag.cond, .halt, .gt, .eq, .lt, .neg, .zero, .carry] := by cases f <;> decide
  rw [maskFlags, List.mem_filter, and_iff_right hall]

theorem State.sameFlagsBut_setMask (s : State) (m : Byte) : SameFlagsBut s (s.setMask m) (maskFlags m) :=
  fun f hf => by rw [State.flag_setMask_eq_ite, if_neg fun hm => hf ((mem_maskFlags m f).2 hm)]

theorem State.sameFlagsBut_clearMask (s : State) (m : Byte) : SameFlagsBut s (s.clearMask m) (maskFlags m) :=
  fun f hf => by rw [State.flag_clearMask_eq_ite, if_neg fun hm => hf ((mem_maskFlags m f).2 hm)]

theorem sameFlagsBut_cmpHandler (u : State) : SameFlagsBut u (cmpHandler u) [.gt, .eq, .lt, .neg, .zero] := by
  intro f hf
  obtain ⟨hgt, heq, hlt, hneg, hzero⟩ : f ≠ .gt ∧ f ≠ .eq ∧ f ≠ .lt ∧ f ≠ .neg ∧ f ≠ .zero := by simpa using hf
  obtain ⟨-, -, hcompare⟩ := u.compareFlags_spec u.destReg u.srcReg
  obtain ⟨-, -, hlogic⟩ := (u.compareFlags u.destReg u.srcReg).logicFlags_spec u.srcReg
  rw [cmpHandler, hlogic, if_neg hneg, if_neg hzero, hcompare, if_neg hgt, if_neg heq, if_neg hlt]

/-- What a flag outside the logic update shows: the flag byte as it was, or its new contents where it is the
destination (D4). -/
theorem State.flag_writeLogic_other (s : State) (v : Byte) {f : Flag} (hf : f ∉ [Flag.neg, .zero]) :
    (s.writeLogic v).flag f = if s.dest = flagIndex then v.getLsbD f.bit else s.flag f := by
  obtain ⟨hneg, hzero⟩ : f ≠ .neg ∧ f ≠ .zero := by simpa using hf
  obtain ⟨-, -, hflag⟩ := s.writeLogic_spec v
  rw [hflag, if_neg hneg, if_neg hzero]

/-- As `flag_writeLogic_other`, for the arithmetic update. -/
theorem State.flag_writeArith_other (s : State) (n : Nat) {f : Flag} (hf : f ∉ [Flag.neg, .zero, .carry]) :
    (s.writeArith n).flag f = if s.dest = flagIndex then (BitVec.ofNat 8 n).getLsbD f.bit else s.flag f := by
  obtain ⟨hneg, hzero, hcarry⟩ : f ≠ .neg ∧ f ≠ .zero ∧ f ≠ .carry := by simpa using hf
  obtain ⟨-, -, hflag⟩ := s.writeArith_spec n
  rw [hflag, if_neg hneg, if_neg hzero, if_neg hcarry]

theorem State.sameFlagsBut_writeLogic (s : State) (v : Byte) (hd : s.dest ≠ flagIndex) :
    SameFlagsBut s (s.writeLogic v) [.neg, .zero] :=
  fun _ hf => by rw [s.flag_writeLogic_other v hf, if_neg hd]

theorem State.sameFlagsBut_writeArith (s : State) (n : Nat) (hd : s.dest ≠ flagIndex) :
    SameFlagsBut s (s.writeArith n) [.neg, .zero, .carry] :=
  fun _ hf => by rw [s.flag_writeArith_other n hf, if_neg hd]

theorem sameFlagsBut_handlerOf {i : Instr} {u : State} (hd : flagIndex ∉ destRegisters i u) :
    SameFlagsBut u (handlerOf i u) (updatedFlags i u) := by
  cases i with
  | cmp => exact sameFlagsBut_cmpHandler u
  | any | all => exact u.sameFlagsBut_setFlag .cond _
  | set => exact u.sameFlagsBut_setMask u.arg
  | clear => exact u.sameFlagsBut_clearMask u.arg
  | and | or | xor | not | neg => exact u.sameFlagsBut_writeLogic _ (List.ne_of_not_mem_cons hd).symm
  | add | sub | rsub | inc | dec => exact u.sameFlagsBut_writeArith _ (List.ne_of_not_mem_cons hd).symm
  | _ => exact (sameRegistersBut_handlerOf rfl u).sameFlagsBut hd _

/-! ### The bus -/

theorem bus_handlerOf {i : Instr} {u : State} (h : storedAddresses i u = []) : (handlerOf i u).bus = u.bus := by
  cases i with
  | store | push | call => exact absurd h (List.cons_ne_nil _ _)
  | ret | load | pop => rfl
  | _ => exact (registersOnly_handlerOf rfl).bus_eq u

theorem sameMemoryBut_handlerOf (i : Instr) (u : State) :
    SameMemoryBut u (handlerOf i u) (storedAddresses i u) := by
  cases i with
  | store => exact sameMemoryBut_writeByte u u.destPair u.srcReg
  | push => exact (sameMemoryBut_writeByte u u.sp u.srcReg).congr rfl rfl
  | call => exact (sameMemoryBut_writeWord u u.sp u.destPair).congr rfl rfl
  | _ => exact sameMemoryBut_of_bus_eq (bus_handlerOf rfl) _

theorem bus_wf_handlerOf (i : Instr) {u : State} (h : u.bus.wf = true) : (handlerOf i u).bus.wf = true := by
  cases i with
  | store => exact u.bus.write_wf u.destPair u.srcReg h
  | push => exact u.bus.write_wf u.sp u.srcReg h
  | call => exact u.bus.writeWord_wf stackWordOrder u.sp u.destPair h
  | _ => rwa [bus_handlerOf rfl]

/-! ### The frame of an executed instruction -/

/-- All that an instruction can do: run its handler after the fetch, or fetch alone (R105 to R107). -/
theorem exec_cases {i : Instr} {s t : State} (e : exec i s = .next t) :
    t = handlerOf i (s.fetched i.operands) ∨ t = s.fetched i.operands := by
  rw [exec_eq_execute] at e
  obtain ⟨-, ht⟩ | ⟨-, ht⟩ := State.execute_cases e
  · exact .inl ht
  · exact .inr ht

theorem reg_handlerOf_of_not_mem {i : Instr} {u : State} {r : RegIdx} (hr : r ∉ destRegisters i u)
    (hflag : r ≠ flagIndex) : (handlerOf i u).reg r = u.reg r := by
  cases hi : assignsFlags i with
  | false => exact sameRegistersBut_handlerOf hi u r hr
  | true => exact sameRegistersBut_handlerOf_of_assignsFlags hi u r (by simp [hr, hflag])

/-- The fetch leaves the bus, so a handler's memory frame is the instruction's. -/
theorem sameMemoryBut_handlerOf_fetched (i : Instr) (s : State) (ops : List Byte) :
    SameMemoryBut s (handlerOf i (s.fetched ops)) (storedAddresses i (s.fetched ops)) :=
  (sameMemoryBut_handlerOf i (s.fetched ops)).congr (s.bus_fetched ops).symm rfl

/-- Settles O15: each of the three frames is a lemma about the 32 handlers; a skipped instruction leaves the fetched
state. -/
theorem instructionFrame : Obligations.InstructionFrame := by
  intro i s t e
  obtain rfl | rfl := exec_cases e
  · exact ⟨fun r => reg_handlerOf_of_not_mem, sameFlagsBut_handlerOf, sameMemoryBut_handlerOf_fetched i s _⟩
  · exact ⟨fun _ _ _ => rfl, fun _ => .refl _ _, sameMemoryBut_of_bus_eq (s.bus_fetched _) _⟩

/-! ### What every step keeps -/

/-- Settles O14: by `step_cases`; the fetch leaves the bus, and no handler breaks its form (`bus_wf_handlerOf`). -/
theorem stepKeepsInv : Obligations.StepKeepsInv := by
  intro s t hinv e
  have hfetched : (s.fetched s.fetchInstr.operands).bus.wf = true := by rwa [State.bus_fetched]
  obtain rfl | rfl | rfl := step_cases e
  · exact hinv
  · exact hfetched
  · exact bus_wf_handlerOf _ hfetched

/-- Settles O17: the memory clause of the frame; a halted step is idle. -/
theorem onlyStoringInstructionsChangeMemory : Obligations.OnlyStoringInstructionsChangeMemory := by
  intro s t e
  cases hh : s.halted with
  | true =>
    obtain rfl : s = t := Host.Outcome.next.inj ((step_of_halted hh).symm.trans e)
    exact ⟨rfl, rfl, fun a ha => absurd rfl ha⟩
  | false =>
    obtain ⟨-, -, hsize, hwritable, hread⟩ := instructionFrame _ s t ((step_of_running hh).symm.trans e)
    exact ⟨hsize, hwritable, fun a ha => ⟨rfl, not_imp_comm.1 (hread a) ha⟩⟩

/-! ### Coming to halt (R211) -/

/-- Of the flag writers only the two masked ones can name HALT. -/
theorem halt_mem_updatedFlags {i : Instr} {u : State} (h : Flag.halt ∈ updatedFlags i u) :
    (i = .set i.predicated i.operands ∨ i = .clear i.predicated i.operands) ∧
      u.arg.getLsbD Flag.halt.bit = true := by
  cases i with
  | set => exact ⟨.inl rfl, (mem_maskFlags _ _).1 h⟩
  | clear => exact ⟨.inr rfl, (mem_maskFlags _ _).1 h⟩
  | _ => simp [updatedFlags] at h

theorem State.halted_clearMask {u : State} {m : Byte} (hm : m.getLsbD Flag.halt.bit = true) :
    (u.clearMask m).halted = false := by
  rw [State.halted, State.flag_clearMask_eq_ite, if_pos hm]

/-- Settles O16: a handler that turns HALT on and has no destination register 4 lists HALT among its flags, so it is
`set` or `clear` with the HALT bit, and `clear` turns it off. -/
theorem haltEnteredOnlyBySetOrFlagByteWrite : Obligations.HaltEnteredOnlyBySetOrFlagByteWrite := by
  intro s t hrunning e hhalted i u
  have hu : u.halted = false := (s.flag_fetched i.operands .halt).trans hrunning
  obtain rfl | rfl := exec_cases ((step_of_running hrunning).symm.trans e)
  case inr => exact absurd (hu.symm.trans hhalted) Bool.false_ne_true
  by_cases hdest : flagIndex ∈ destRegisters i u
  case pos => exact .inr hdest
  have hmem : Flag.halt ∈ updatedFlags i u := by
    by_contra hnot
    exact Bool.false_ne_true (hu.symm.trans ((sameFlagsBut_handlerOf hdest .halt hnot).symm.trans hhalted))
  obtain ⟨hset | hclear, hmask⟩ := halt_mem_updatedFlags hmem
  · exact .inl ⟨hset, hmask⟩
  · have hoff : (handlerOf i u).halted = false := by rw [hclear]; exact State.halted_clearMask hmask
    exact absurd (hoff.symm.trans hhalted) Bool.false_ne_true

/-! ### The final `pc` (R108, conflict C1) -/

theorem pc_handlerOf {i : Instr} {u : State} (h : ∀ r ∈ destRegisters i u, pairIndex r ≠ pcIndex) :
    (handlerOf i u).pc = u.pc := by
  have hlow : pcIndex ∉ destRegisters i u := fun hmem => h _ hmem (by decide)
  have hhigh : 1#4 ∉ destRegisters i u := fun hmem => h _ hmem (by decide)
  exact congrArg₂ wordOf (reg_handlerOf_of_not_mem hhigh (by decide)) (reg_handlerOf_of_not_mem hlow (by decide))

/-- Settles O11: the fetch moves `pc` past the instruction, and no handler without a destination there moves it
again. -/
theorem pcAdvance : Obligations.PcAdvance := by
  intro i s hi hdest
  obtain ⟨hpc, -⟩ := s.fetched_of_wellFormed hi
  cases hr : s.runs i.predicated with
  | true => exact ⟨_, exec_of_runs hr, (pc_handlerOf hdest).trans hpc⟩
  | false => exact ⟨_, exec_of_skipped hr, hpc⟩

end Sys2Proof.Machine
end

section
/-! PROOFS. Encoding and decoding undo each other (spec/30_encoding.md R80 to R90), and the instruction that a step
runs is the one decoded at `pc` (spec/40_step_cycle.md R106). -/

namespace Sys2Proof

/-! ### Encode, then decode -/

/-- R88: the three things an encoding holds determine the instruction. -/
theorem instrOfSelector_fields (i : Instr) : instrOfSelector i.selector i.predicated i.operands = i := by
  cases i <;> rfl

theorem length_operands_le {i : Instr} (hi : i.WellFormed = true) : i.operands.length ≤ Config.maxOperands :=
  of_decide_eq_true hi

/-- Settles O1: the three fields of the encoded opcode byte are those of the instruction (`encodeOpcode_fields`), and
they determine it (`instrOfSelector_fields`). -/
theorem decodeAfterEncode : Obligations.DecodeAfterEncode := by
  intro i rest hi
  obtain ⟨hargc, hpredicated, hselector⟩ :=
    encodeOpcode_fields i.operands.length i.predicated i.selector (length_operands_le hi)
  have henough : opcodeArgc (encodeOpcode i.operands.length i.predicated i.selector) ≤ (i.operands ++ rest).length := by
    rw [hargc, List.length_append]
    exact Nat.le_add_right _ _
  rw [encode, List.cons_append, decode_cons_of_le henough, hargc, List.take_left, List.drop_left, decodeOpcode,
    hselector, hpredicated, instrOfSelector_fields]

/-! ### Decode, then encode -/

theorem encode_decodeOpcode {op : Byte} {ops : List Byte} (h : ops.length = opcodeArgc op) :
    encode (decodeOpcode op ops) = op :: ops := by
  rw [encode, operands_decodeOpcode, predicated_decodeOpcode, selector_decodeOpcode, h, encodeOpcode_of_fields]

/-- All that a successful decoding says: there is an opcode byte, and the bytes it announces follow it. -/
theorem decode_eq_ok {bs rest : List Byte} {i : Instr} (h : decode bs = .ok (i, rest)) :
    ∃ op ops, bs = op :: (ops ++ rest) ∧ ops.length = opcodeArgc op ∧ i = decodeOpcode op ops := by
  cases bs with
  | nil => cases h
  | cons op tail =>
    by_cases hshort : tail.length < opcodeArgc op
    · rw [decode, if_pos hshort] at h
      cases h
    · have henough := Nat.not_lt.1 hshort
      rw [decode_cons_of_le henough] at h
      cases h
      exact ⟨op, _, by rw [List.take_append_drop], List.length_take_of_le henough, rfl⟩

/-- Settles O2: a successful decoding splits the bytes (`decode_eq_ok`), and the opcode byte is the one encoded from
its fields. -/
theorem encodeAfterDecode : Obligations.EncodeAfterDecode := by
  intro bs rest i h
  obtain ⟨op, ops, rfl, hlen, rfl⟩ := decode_eq_ok h
  refine ⟨decide_eq_true ?wellFormed, ?bytes⟩
  case wellFormed =>
    rw [operands_decodeOpcode, hlen]
    exact opcodeArgc_le op
  case bytes => rw [encode_decodeOpcode hlen, List.cons_append]

/-- Settles O4: each list of bytes is evaluated by the decoder. -/
theorem specWordsDecode : Obligations.SpecWordsDecode :=
  ⟨rfl, rfl, rfl, rfl, rfl, rfl⟩

namespace Machine

/-! ### The instruction at `pc` -/

theorem State.take_bytesAt (s : State) (a : Word) {k n : Nat} (hk : k ≤ n) :
    (s.bytesAt a n).take k = s.bytesAt a k := by
  induction n generalizing a k with
  | zero => rw [Nat.le_zero.1 hk]; rfl
  | succ n ih =>
    cases k with
    | zero => rfl
    | succ k => rw [State.bytesAt, List.take_succ_cons, ih _ (Nat.le_of_succ_le_succ hk), State.bytesAt]

/-- Four bytes are enough for every instruction, so the decoder reads what the fetch reads. -/
theorem State.decode_bytesAt_pc (s : State) : ∃ rest, decode (s.bytesAt s.pc 4) = .ok (s.fetchInstr, rest) := by
  have hargc : opcodeArgc (s.readByte s.pc) ≤ 3 := opcodeArgc_le _
  rw [State.bytesAt, decode_cons_of_le (by rwa [State.length_bytesAt]), s.take_bytesAt _ hargc]
  exact ⟨_, rfl⟩

/-- Settles O5: the decoded instruction is the fetched one (`decode_bytesAt_pc`), which a running step executes. -/
theorem stepRunsDecodedInstruction : Obligations.StepRunsDecodedInstruction := by
  intro s i rest hrunning hdecode
  obtain ⟨rest', hfetch⟩ := s.decode_bytesAt_pc
  obtain ⟨rfl, -⟩ : s.fetchInstr = i ∧ rest' = rest := by simpa using hfetch.symm.trans hdecode
  exact step_of_running hrunning

/-- Settles O7: `step_answers_next` says it. -/
theorem stepAlwaysAnswersNext : Obligations.StepAlwaysAnswersNext := step_answers_next

/-! ### `nop`, and the zero bytes outside the extent (R90, R120) -/

theorem exec_nop (p : Bool) (ops : List Byte) (s : State) : exec (.nop p ops) s = .next (s.fetched ops) := by
  cases hr : s.runs p with
  | true => exact exec_of_runs (i := .nop p ops) hr
  | false => exact exec_of_skipped (i := .nop p ops) hr

/-- Settles O25: the handler of `nop` is the identity, so both outcomes of the predicate test are the fetched state. -/
theorem nopCompletes : Obligations.NopCompletes :=
  ⟨selects_of_instrOfSelector fun _ _ => rfl, exec_nop⟩

/-- The opcode byte read outside the extent is 0, a `nop` with no operand bytes. -/
theorem State.fetchInstr_outside {s : State} (h : s.bus.size ≤ s.pc.toNat) : s.fetchInstr = .nop false [] := by
  have hop : s.readByte s.pc = 0#8 := s.bus.read_outside s.pc h
  have hargc : opcodeArgc 0#8 = 0 := rfl
  rw [State.fetchInstr, hop, hargc]
  rfl

/-- With no operand byte the fetch moves `pc` alone. -/
theorem State.fetched_nil (s : State) : s.fetched [] = s.setPair pcIndex (s.pc + 1#16) := rfl

/-- Settles O10: the step is a `nop` with no operand bytes, whose fetch moves `pc` by one. -/
theorem outsideExtentRunsNop : Obligations.OutsideExtentRunsNop := by
  intro s hrunning houtside
  refine ⟨s.setPair pcIndex (s.pc + 1#16), ?step, s.pair_setPair_same pcIndex _, s.sameRegistersBut_setPair pcIndex _,
    s.bus_setPair pcIndex _⟩
  case step => rw [step_of_running hrunning, s.fetchInstr_outside houtside, exec_nop, State.fetched_nil]

end Machine

end Sys2Proof
end

section
/-! PROOFS. The accessors by themselves: bytes and words of the bus (spec/20_memory.md R54, R56), pairs as counters
(spec/10_state.md R25), the flag byte (R28, R29), and the host's control of HALT (R211, R215). -/

namespace Sys2Proof.Machine

/-! ### The bus -/

/-- Settles O13: the bus of the state after reset is `Bus.atReset`. -/
theorem resetKeepsInv : Obligations.ResetKeepsInv := Bus.atReset_wf

theorem Bus.writeLands_iff (b : Bus) (a : Word) :
    b.writeLands a = true ↔ b.writable = true ∧ a.toNat < b.size := by
  simp [Bus.writeLands, Bus.inExtent]

theorem Bus.read_write_same {b : Bus} {a : Word} (h : b.writeLands a = true) (v : Byte) : (b.write a v).read a = v := by
  rw [Bus.read_write, if_pos ⟨rfl, h⟩]

theorem Bus.read_write_other (b : Bus) {a a' : Word} (h : a ≠ a') (v : Byte) : (b.write a v).read a' = b.read a' := by
  rw [Bus.read_write, if_neg fun hc => h hc.left]

/-- Settles O20: `Bus.read_write` gives both reads, and a write that does not land is dropped. -/
theorem readAfterWrite : Obligations.ReadAfterWrite := by
  intro s a v
  refine ⟨fun hwritable hin => ?same, fun a' ha' => Bus.read_write_other s.bus ha'.symm v, ?dropped⟩
  case same => exact Bus.read_write_same ((s.bus.writeLands_iff a).2 ⟨hwritable, hin⟩) v
  case dropped =>
    rintro (hreadOnly | houtside)
    · exact congrArg s.setBus (s.bus.write_readOnly a v hreadOnly)
    · exact congrArg s.setBus (s.bus.write_outside a v houtside)

theorem Word.succ_ne (a : Word) : a + 1#16 ≠ a := by bv_omega

section TwoBytes

/-! Two bytes written at neighbouring addresses, both of which land; a word write in either order is one of these. -/

variable {b : Bus} {a : Word} (ha : b.writeLands a = true) (ha1 : b.writeLands (a + 1#16) = true) (x y : Byte)

include ha in
theorem Bus.read_write_write_first : ((b.write a x).write (a + 1#16) y).read a = x := by
  rw [Bus.read_write_other _ (Word.succ_ne a), Bus.read_write_same ha]

include ha1 in
theorem Bus.read_write_write_second : ((b.write a x).write (a + 1#16) y).read (a + 1#16) = y :=
  Bus.read_write_same (by rwa [Bus.writeLands_write]) y

include ha ha1 in
theorem Bus.readWord_writeWord (order : ByteOrder) (v : Word) : (b.writeWord order a v).readWord order a = v := by
  cases order <;>
    simp only [Bus.readWord, Bus.writeWord, Bus.read_write_write_first ha, Bus.read_write_write_second ha1,
      wordOf_bytes]

end TwoBytes

/-- Settles O21: a word access is two byte accesses at `a` and `a + 1`, which differ also at the wrap
(`Word.succ_ne`). -/
theorem wordAccessors : Obligations.WordAccessors := by
  intro b a v
  refine ⟨toNat_wordOf _ _, toNat_wordOf _ _, fun order ha ha1 => ⟨Bus.readWord_writeWord ha ha1 order v, ?littleLow,
    ?littleHigh, ?bigHigh, ?bigLow, b.read_writeWord_other order a v⟩⟩
  case littleLow => rw [Bus.writeWord, Bus.read_write_write_first ha, toNat_lowByte]
  case littleHigh => rw [Bus.writeWord, Bus.read_write_write_second ha1, toNat_highByte]
  case bigHigh => rw [Bus.writeWord, Bus.read_write_write_first ha, toNat_highByte]
  case bigLow => rw [Bus.writeWord, Bus.read_write_write_second ha1, toNat_lowByte]

/-! ### Pairs as counters -/

/-- Settles O23: an increment writes the whole pair (`pair_setPair_same`), modulo the width of a word. -/
theorem pairIncrementWraps : Obligations.PairIncrementWraps := by
  intro s i n
  refine ⟨?add, ?sub, s.sameRegistersBut_setPair i _, s.sameRegistersBut_setPair i _⟩
  case add => rw [State.addPair, State.pair_setPair_same, BitVec.toNat_add]
  case sub =>
    rw [State.subPair, State.pair_setPair_same, BitVec.toNat_sub]
    congr 1
    omega

/-! ### The flag byte -/

theorem toNat_getLsbD (v : Byte) (k : Nat) : (v.getLsbD k).toNat = v.toNat / 2 ^ k % 2 :=
  Nat.toNat_testBit v.toNat k

/-- A byte is the sum of its bits at their weights. -/
theorem byte_eq_sum_bits (v : Byte) : v.toNat =
    128 * (v.getLsbD 7).toNat + 64 * (v.getLsbD 6).toNat + 32 * (v.getLsbD 5).toNat + 16 * (v.getLsbD 4).toNat +
      8 * (v.getLsbD 3).toNat + 4 * (v.getLsbD 2).toNat + 2 * (v.getLsbD 1).toNat + (v.getLsbD 0).toNat := by
  have hv : v.toNat < 256 := v.isLt
  simp only [toNat_getLsbD]
  omega

theorem State.flag_setFlag_same (s : State) (f : Flag) (b : Bool) : (s.setFlag f b).flag f = b := by
  rw [State.flag_setFlag, if_pos rfl]

/-- Settles O24: the flags are the bits of the flag byte (`byte_eq_sum_bits`), and an assignment writes one of them. -/
theorem flagWriteFrame : Obligations.FlagWriteFrame :=
  ⟨fun s => byte_eq_sum_bits s.flags, fun s f b =>
    ⟨s.flag_setFlag_same f b, s.sameFlagsBut_setFlag f b, s.sameRegistersBut_setFlag f b, s.bus_setFlag f b⟩⟩

/-! ### The host's control of HALT -/

theorem State.bytesAt_congr {s t : State} (hbus : t.bus = s.bus) (a : Word) (n : Nat) :
    t.bytesAt a n = s.bytesAt a n := by
  induction n generalizing a with
  | zero => rfl
  | succ n ih => rw [State.bytesAt, State.bytesAt, ih, State.readByte, State.readByte, hbus]

/-- The fetch reads `pc` and the bus alone. -/
theorem State.fetchInstr_congr {s t : State} (hpc : t.pc = s.pc) (hbus : t.bus = s.bus) :
    t.fetchInstr = s.fetchInstr := by
  simp only [State.fetchInstr, hpc, State.bytesAt_congr hbus, State.readByte, hbus]

theorem State.fetchInstr_setFlag (s : State) (f : Flag) (b : Bool) : (s.setFlag f b).fetchInstr = s.fetchInstr :=
  State.fetchInstr_congr (s.pc_setFlag f b) (s.bus_setFlag f b)

/-- Settles O55: both controls assign HALT, so the frame is `setFlag`'s; the assignment leaves what the fetch reads. -/
theorem hostHaltControl : Obligations.HostHaltControl := by
  intro s
  refine ⟨?forceHalt, ?forceClearHalt⟩
  case forceHalt =>
    have hhalted : (s.setFlag .halt true).halted = true := s.flag_setFlag_same .halt true
    exact ⟨hhalted, step_of_halted hhalted, s.sameFlagsBut_setFlag .halt true, s.sameRegistersBut_setFlag .halt true,
      s.bus_setFlag .halt true⟩
  case forceClearHalt =>
    have hrunning : (s.setFlag .halt false).halted = false := s.flag_setFlag_same .halt false
    have hstep : step (s.setFlag .halt false) = exec s.fetchInstr (s.setFlag .halt false) := by
      rw [step_of_running hrunning, State.fetchInstr_setFlag]
    exact ⟨hrunning, hstep, s.sameFlagsBut_setFlag .halt false, s.sameRegistersBut_setFlag .halt false,
      s.bus_setFlag .halt false⟩

end Sys2Proof.Machine
end

section
/-! PROOFS. The instructions whose handler writes registers alone, a byte or a pair (spec/42_bit_move.md R130 to R135,
R142, spec/46_shift_imm.md R171 to R173), and `cmp`, which writes flags alone (R121). -/

namespace Sys2Proof.Machine

/-! ### The frame of an instruction that runs -/

/-- With no store, an instruction leaves memory as it was before the fetch. -/
theorem sameMemoryBut_handlerOf_nil {i : Instr} {s : State} {ops : List Byte}
    (h : storedAddresses i (s.fetched ops) = []) : SameMemoryBut s (handlerOf i (s.fetched ops)) [] :=
  h ▸ sameMemoryBut_handlerOf_fetched i s ops

/-! ### Copies -/

theorem pairIndex_pcIndex : pairIndex pcIndex = pcIndex := by decide

/-- Settles O31: the handler writes the destination alone. -/
theorem movResult : Obligations.MovResult :=
  fun p ops _ hr => exec_of_handler_setReg (i := .mov p ops) hr rfl

/-- Settles O35: the handler writes the destination alone, with a byte of the bus that the fetch left. -/
theorem loadResult : Obligations.LoadResult := by
  intro p ops s hr u
  have hread : u.readByte u.srcPair = s.readByte (u.pair u.src) := s.readByte_fetched ops _
  exact hread ▸ exec_of_handler_setReg (i := .load p ops) hr rfl

/-- Settles O32: the handler writes the destination pair alone; `pc` is the pair of index 0. -/
theorem mov16Result : Obligations.Mov16Result := by
  intro p ops s hr u
  have hpair : (mov16Handler u).pair u.dest = u.pair u.src := u.pair_setPair_same u.dest _
  refine ⟨mov16Handler u, exec_of_runs (i := .mov16 p ops) hr, ⟨hpair, u.sameRegistersBut_setPair u.dest _,
    sameMemoryBut_handlerOf_nil (i := .mov16 p ops) rfl⟩, fun hpc => ?jump⟩
  case jump =>
    have hindex : pairIndex pcIndex = pairIndex u.dest := pairIndex_pcIndex.trans hpc.symm
    exact (State.pair_congr _ hindex).trans hpair

/-- Settles O28: both registers are read before either is written, so the later write of the old destination is right
even where it is the same register. -/
theorem swapResult : Obligations.SwapResult := by
  intro p ops s hr u
  refine ⟨swapHandler u, exec_of_runs (i := .swap p ops) hr, ?dest, ?src,
    sameRegistersBut_handlerOf (i := .swap p ops) rfl u, sameMemoryBut_handlerOf_nil (i := .swap p ops) rfl⟩
  case dest =>
    rw [swapHandler, State.reg_setReg, State.reg_setReg, if_pos rfl]
    split
    case isTrue hsame => rw [hsame]; rfl
    case isFalse => rfl
  case src => rw [swapHandler, State.reg_setReg, if_pos rfl]; rfl

/-! ### Bit reversal and bit counts -/

theorem getLsbD_reverseBits (v : Byte) {k : Nat} (hk : k < 8) : (reverseBits v).getLsbD (7 - k) = v.getLsbD k := by
  have hall : ∀ v : Byte, ∀ k < 8, (reverseBits v).getLsbD (7 - k) = v.getLsbD k := by decide
  exact hall v k hk

/-- Settles O29: the handler writes the destination alone, with the reversed byte (`getLsbD_reverseBits`). -/
theorem revResult : Obligations.RevResult := by
  intro p ops s hr
  obtain ⟨t, ht, hwrites⟩ := exec_of_handler_setReg (i := .rev p ops) hr rfl
  exact ⟨t, _, ht, hwrites, fun k => getLsbD_reverseBits _⟩

theorem foldl_add_toNat (f : Nat → Bool) (l : List Nat) (n : Nat) :
    l.foldl (fun acc i => acc + (f i).toNat) n = n + l.countP f := by
  induction l generalizing n with
  | nil => rfl
  | cons i l ih =>
    rw [List.foldl_cons, ih, List.countP_cons, Nat.add_assoc, Nat.add_comm (f i).toNat]
    cases f i <;> rfl

theorem popcount_eq_countBits (v : Byte) : popcount v = countBits v true := by
  simp only [popcount, foldl_add_toNat, countBits, Nat.zero_add, beq_true]

/-- Every bit of a byte is 1 or 0. -/
theorem countBits_true_add_false (v : Byte) : countBits v true + countBits v false = 8 := by
  have hsplit := List.length_eq_countP_add_countP (fun i => v.getLsbD i == true) (l := List.range 8)
  simpa [countBits] using hsplit.symm

/-- Settles O30: the model's fold is the count (`popcount_eq_countBits`), and the two counts make 8, so each fits in a
byte. -/
theorem bitCountResults : Obligations.BitCountResults := by
  intro p ops s hr u
  obtain ⟨t, ht, hzeros⟩ := exec_of_handler_setReg (i := .zeros p ops) hr rfl
  obtain ⟨t', ht', hones⟩ := exec_of_handler_setReg (i := .ones p ops) hr rfl
  have hsum := countBits_true_add_false (u.reg u.src)
  have hpop : popcount u.srcReg = countBits (u.reg u.src) true := popcount_eq_countBits _
  have hzero : (BitVec.ofNat 8 (8 - popcount u.srcReg)).toNat = countBits (u.reg u.src) false := by
    rw [BitVec.toNat_ofNat, hpop]; omega
  have hone : (BitVec.ofNat 8 (popcount u.srcReg)).toNat = countBits (u.reg u.src) true := by
    rw [BitVec.toNat_ofNat, hpop]; omega
  exact ⟨t, t', _, _, ht, ht', hzeros, hzero, hones, hone, (congrArg₂ (· + ·) hone hzero).trans hsum⟩

/-! ### Shifts -/

theorem shiftRight_of_ge {n : Nat} (x : Byte) (hn : n ≥ 8) : shiftRight x n = 0#8 :=
  if_pos hn

/-- R171: one formula for every amount, because a byte is below `2 ^ n` from `n = 8` on. -/
theorem toNat_shiftRight (x : Byte) (n : Nat) : (shiftRight x n).toNat = x.toNat / 2 ^ n := by
  by_cases hn : n ≥ 8
  · have hlt : x.toNat < 2 ^ n := x.isLt.trans_le (Nat.pow_le_pow_right Nat.two_pos hn)
    rw [shiftRight_of_ge x hn, Nat.div_eq_of_lt hlt]
    rfl
  · rw [shiftRight, if_neg hn, BitVec.toNat_ushiftRight, Nat.shiftRight_eq_div_pow]

/-- R84: the immediate is the low nibble of A0. -/
theorem State.imm4_eq_mod (u : State) : u.imm4 = (u.reg a0Index).toNat % 16 := by
  simp [State.imm4, State.src]

/-- Settles O44: the handler writes the destination alone, and the byte it writes is `toNat_shiftRight`'s for every
amount. -/
theorem shrResult : Obligations.ShrResult := by
  intro p ops s hr
  obtain ⟨t, ht, hwrites⟩ := exec_of_handler_setReg (i := .shr p ops) hr rfl
  exact ⟨t, _, ht, hwrites, toNat_shiftRight _ _, shiftRight_of_ge _⟩

/-- Settles O45: as the shifts by a register, with the immediate as the amount. -/
theorem shiftImmediateResults : Obligations.ShiftImmediateResults := by
  intro p ops s hr u n
  have hn : u.imm4 = n := u.imm4_eq_mod
  obtain ⟨t, ht, hleft⟩ := exec_of_handler_setReg (i := .shlimm p ops) hr rfl
  obtain ⟨t', ht', hright⟩ := exec_of_handler_setReg (i := .shrimm p ops) hr rfl
  refine ⟨t, t', _, _, ht, ht', hleft, ?leftValue, fun h8 => shiftLeft_of_ge _ (hn ▸ h8), hright, ?rightValue,
    fun h8 => shiftRight_of_ge _ (hn ▸ h8)⟩
  case leftValue => exact hn ▸ toNat_shiftLeft u.destReg u.imm4
  case rightValue => exact hn ▸ toNat_shiftRight u.destReg u.imm4

/-! ### Comparison -/

/-- NEG is bit 7 of a value, the half of the bytes from 128 on. -/
theorem getLsbD_seven (v : Byte) : v.getLsbD 7 = decide (v.toNat ≥ 128) := by
  have hv : v.toNat < 256 := v.isLt
  rw [BitVec.getLsbD, Nat.testBit_eq_decide_div_mod_eq, decide_eq_decide]
  omega

theorem beq_eq_decide_toNat (v w : Byte) : (v == w) = decide (v.toNat = w.toNat) := by
  rw [← decide_eq_decide.2 (BitVec.toNat_inj (x := v) (y := w)).symm]
  rfl

theorem flag_cmpHandler (u : State) (f : Flag) :
    (cmpHandler u).flag f =
      if f = .neg then u.srcReg.getLsbD 7 else if f = .zero then u.srcReg == 0#8
      else if f = .gt then decide (u.srcReg < u.destReg) else if f = .eq then u.destReg == u.srcReg
      else if f = .lt then decide (u.destReg < u.srcReg) else u.flag f := by
  obtain ⟨-, -, hcompare⟩ := u.compareFlags_spec u.destReg u.srcReg
  obtain ⟨-, -, hlogic⟩ := (u.compareFlags u.destReg u.srcReg).logicFlags_spec u.srcReg
  rw [cmpHandler, hlogic, hcompare]

/-- Settles O26: the five flags are those of `flag_cmpHandler`, read as comparisons of numbers. -/
theorem cmpResult : Obligations.CmpResult := by
  intro p ops s hr u a b
  refine ⟨cmpHandler u, exec_of_runs (i := .cmp p ops) hr, flag_cmpHandler u .gt, ?eq, flag_cmpHandler u .lt,
    ?neg, ?zero, sameFlagsBut_cmpHandler u, sameRegistersBut_cmpHandler u,
    sameMemoryBut_handlerOf_nil (i := .cmp p ops) rfl⟩
  case eq => exact (flag_cmpHandler u .eq).trans (beq_eq_decide_toNat _ _)
  case neg => exact (flag_cmpHandler u .neg).trans (getLsbD_seven _)
  case zero => exact (flag_cmpHandler u .zero).trans (beq_eq_decide_toNat _ 0#8)

end Sys2Proof.Machine
end

section
/-! PROOFS. Logic and arithmetic (spec/44_logic.md, spec/45_arith.md, spec/46_shift_imm.md R174, R175): what an
instruction does whose handler ends in one of the two flag updaters, and each result as a number. -/

namespace Sys2Proof.Machine

/-! ### An instruction that ends in a flag updater (D4, D9) -/

/-- The frame and the destination of the logic update. -/
theorem writesResult_writeLogic {s u : State} (hbus : u.bus = s.bus) (v : Byte) :
    WritesResult s u (u.writeLogic v) u.dest v [.neg, .zero] := by
  obtain ⟨hwriteBus, hreg, -⟩ := u.writeLogic_spec v
  refine ⟨fun hd => ⟨?dest, u.sameFlagsBut_writeLogic v hd⟩, fun hd f hf => ?flagByte,
    u.sameRegistersBut_writeLogic v, sameMemoryBut_of_bus_eq (hwriteBus.trans hbus) []⟩
  case dest => rw [hreg _ hd, if_pos rfl]
  case flagByte => rw [u.flag_writeLogic_other v hf, if_pos hd]

/-- The frame and the destination of the arithmetic update. -/
theorem writesResult_writeArith {s u : State} (hbus : u.bus = s.bus) (n : Nat) :
    WritesResult s u (u.writeArith n) u.dest (BitVec.ofNat 8 n) [.neg, .zero, .carry] := by
  obtain ⟨hwriteBus, hreg, -⟩ := u.writeArith_spec n
  refine ⟨fun hd => ⟨?dest, u.sameFlagsBut_writeArith n hd⟩, fun hd f hf => ?flagByte,
    u.sameRegistersBut_writeArith n, sameMemoryBut_of_bus_eq (hwriteBus.trans hbus) []⟩
  case dest => rw [hreg _ hd, if_pos rfl]
  case flagByte => rw [u.flag_writeArith_other n hf, if_pos hd]

theorem exec_of_handler_writeLogic {i : Instr} {s : State} {v : Byte} (hr : s.runs i.predicated = true)
    (hh : handlerOf i (s.fetched i.operands) = (s.fetched i.operands).writeLogic v) :
    ∃ t, exec i s = .next t ∧ t.flag .neg = decide (v.toNat ≥ 128) ∧ t.flag .zero = decide (v.toNat = 0) ∧
      WritesResult s (s.fetched i.operands) t (s.fetched i.operands).dest v [.neg, .zero] := by
  obtain ⟨-, -, hflag⟩ := (s.fetched i.operands).writeLogic_spec v
  refine ⟨(s.fetched i.operands).writeLogic v, ?runs, (hflag .neg).trans (getLsbD_seven v),
    (hflag .zero).trans (beq_eq_decide_toNat v 0#8), writesResult_writeLogic (s.bus_fetched _) v⟩
  case runs => rw [exec_of_runs hr, hh]

/-- As `exec_of_handler_writeLogic`, for a 9-bit intermediate `n`, of which CARRY is bit 8. -/
theorem exec_of_handler_writeArith {i : Instr} {s : State} {n : Nat} (hr : s.runs i.predicated = true)
    (hh : handlerOf i (s.fetched i.operands) = (s.fetched i.operands).writeArith n) :
    ∃ t v, exec i s = .next t ∧ v.toNat = n % 256 ∧
      t.flag .neg = decide (v.toNat ≥ 128) ∧ t.flag .zero = decide (v.toNat = 0) ∧ t.flag .carry = decide (n > 255) ∧
      WritesResult s (s.fetched i.operands) t (s.fetched i.operands).dest v [.neg, .zero, .carry] := by
  obtain ⟨-, -, hflag⟩ := (s.fetched i.operands).writeArith_spec n
  refine ⟨(s.fetched i.operands).writeArith n, BitVec.ofNat 8 n, ?runs, BitVec.toNat_ofNat n 8,
    (hflag .neg).trans (getLsbD_seven _), (hflag .zero).trans (beq_eq_decide_toNat _ 0#8), hflag .carry,
    writesResult_writeArith (s.bus_fetched _) n⟩
  case runs => rw [exec_of_runs hr, hh]

/-! ### Logic -/

/-- Settles O39: each handler is the logic update of one bitwise operation (`exec_of_handler_writeLogic`). -/
theorem logicResults : Obligations.LogicResults := by
  intro p ops s hr u a b result
  refine ⟨?and, ?or, ?xor, ?not⟩
  case and =>
    obtain ⟨t, ht, hresult⟩ := exec_of_handler_writeLogic (i := .and p ops) hr rfl
    exact ⟨t, _, ht, fun _ _ => BitVec.getLsbD_and, hresult⟩
  case or =>
    obtain ⟨t, ht, hresult⟩ := exec_of_handler_writeLogic (i := .or p ops) hr rfl
    exact ⟨t, _, ht, fun _ _ => BitVec.getLsbD_or, hresult⟩
  case xor =>
    obtain ⟨t, ht, hresult⟩ := exec_of_handler_writeLogic (i := .xor p ops) hr rfl
    exact ⟨t, _, ht, fun _ _ => BitVec.getLsbD_xor, hresult⟩
  case not =>
    obtain ⟨t, ht, hresult⟩ := exec_of_handler_writeLogic (i := .not p ops) hr rfl
    exact ⟨t, _, ht, fun k hk => by rw [BitVec.getLsbD_not, decide_eq_true hk, Bool.true_and]; rfl, hresult⟩

/-! ### Arithmetic -/

/-- Settles O40: the intermediate of `add` is the sum itself. -/
theorem addResult : Obligations.AddResult := by
  intro p ops s hr u sum
  obtain ⟨t, v, ht, hv, hneg, hzero, hrest⟩ := exec_of_handler_writeArith (i := .add p ops) hr rfl
  have hsum : v.toNat = sum % 256 := hv
  rw [hsum] at hneg hzero
  exact ⟨t, v, ht, hsum, hneg, hzero, hrest⟩

/-- Settles O42: the logic update of the difference `0 - x[src]`. -/
theorem negResult : Obligations.NegResult := by
  intro p ops s hr u
  obtain ⟨t, ht, hresult⟩ := exec_of_handler_writeLogic (i := .neg p ops) hr rfl
  have hvalue : (0#8 - u.srcReg).toNat = (256 - u.srcReg.toNat) % 256 := by rw [BitVec.toNat_sub]; rfl
  exact ⟨t, _, ht, hvalue, hresult⟩

/-- Adding the 8-bit complement and a carry-in subtracts with the complement of the carry as the borrow (D8). -/
theorem add_complement_mod (x y : Byte) (c : Bool) :
    (x.toNat + (~~~y).toNat + c.toNat) % 256 = (x.toNat + 256 - y.toNat - (1 - c.toNat)) % 256 := by
  have hy : y.toNat < 256 := y.isLt
  have hc : c.toNat ≤ 1 := c.toNat_le
  rw [BitVec.toNat_not]
  congr 1
  omega

/-- The carry of that sum says that there is no borrow out. -/
theorem add_complement_gt_iff (x y : Byte) (c : Bool) :
    x.toNat + (~~~y).toNat + c.toNat > 255 ↔ x.toNat ≥ y.toNat + (1 - c.toNat) := by
  have hy : y.toNat < 256 := y.isLt
  have hc : c.toNat ≤ 1 := c.toNat_le
  rw [BitVec.toNat_not]
  omega

/-- An instruction whose intermediate is `x + ~y + c` subtracts `y` and the borrow `1 - c` from `x`. -/
theorem exec_of_handler_subtracts {i : Instr} {s : State} {x y : Byte} {c : Bool} (hr : s.runs i.predicated = true)
    (hh : handlerOf i (s.fetched i.operands) =
      (s.fetched i.operands).writeArith (x.toNat + (~~~y).toNat + c.toNat)) :
    ∃ t v, exec i s = .next t ∧ v.toNat = (x.toNat + 256 - y.toNat - (1 - c.toNat)) % 256 ∧
      t.flag .neg = decide (v.toNat ≥ 128) ∧ t.flag .zero = decide (v.toNat = 0) ∧
      t.flag .carry = decide (x.toNat ≥ y.toNat + (1 - c.toNat)) ∧
      WritesResult s (s.fetched i.operands) t (s.fetched i.operands).dest v [.neg, .zero, .carry] := by
  obtain ⟨t, v, ht, hv, hneg, hzero, hcarry, hwrites⟩ := exec_of_handler_writeArith hr hh
  exact ⟨t, v, ht, hv.trans (add_complement_mod x y c), hneg, hzero,
    hcarry.trans (decide_eq_decide.2 (add_complement_gt_iff x y c)), hwrites⟩

theorem rsubHandler_eq (u : State) :
    rsubHandler u = u.writeArith (u.srcReg.toNat + (~~~u.destReg).toNat + u.carryIn) := by
  rw [rsubHandler, Nat.add_comm u.srcReg.toNat]

/-- Settles O41: both intermediates are of the form of `exec_of_handler_subtracts`; `rsub` lists its summands in the
other order. -/
theorem subtractResults : Obligations.SubtractResults := by
  intro p ops s hr u a b borrow result
  exact ⟨exec_of_handler_subtracts (i := .sub p ops) hr rfl,
    exec_of_handler_subtracts (i := .rsub p ops) hr (rsubHandler_eq u)⟩

theorem decHandler_eq (u : State) :
    decHandler u = u.writeArith (u.destReg.toNat + (~~~(BitVec.ofNat 8 u.imm4)).toNat + true.toNat) := rfl

/-- Settles O46: `inc` adds the immediate; `dec` is a subtraction of it with no borrow in. -/
theorem incDecResults : Obligations.IncDecResults := by
  intro p ops s hr u a n
  have hn : u.imm4 = n := u.imm4_eq_mod
  refine ⟨?inc, ?dec⟩
  case inc => exact hn ▸ exec_of_handler_writeArith (i := .inc p ops) hr rfl
  case dec =>
    have himm : (BitVec.ofNat 8 u.imm4).toNat = n := by
      rw [BitVec.toNat_ofNat, hn]
      omega
    obtain ⟨t, v, ht, hv, hneg, hzero, hcarry, hwrites⟩ :=
      exec_of_handler_subtracts (i := .dec p ops) hr (decHandler_eq u)
    rw [himm] at hv hcarry
    exact ⟨t, v, ht, hv, hneg, hzero, hcarry, hwrites⟩

end Sys2Proof.Machine
end

section
/-! PROOFS. Call, return, store, push and pop (spec/43_stack_memory.md R140, R141, R143 to R145): the byte that a write
leaves at its own address, landing or dropped, and the stack pointer that each handler leaves. -/

namespace Sys2Proof.Machine

/-! ### What a write leaves at its own address (R52, R53) -/

theorem Bus.read_write_at (b : Bus) (a : Word) (v : Byte) :
    (b.write a v).read a = if b.writeLands a = true then v else b.read a := by
  simp only [Bus.read_write, true_and]

theorem State.readByte_writeByte_at (s : State) (a : Word) (v : Byte) :
    (s.writeByte a v).readByte a = if s.bus.writeLands a = true then v else s.readByte a :=
  s.bus.read_write_at a v

/-- D1: the low byte of a stack word is at the lower address. -/
theorem State.readByte_writeWord_low (s : State) (a v : Word) :
    (s.writeWord a v).readByte a = if s.bus.writeLands a = true then lowByte v else s.readByte a :=
  (Bus.read_write_other _ (Word.succ_ne a) _).trans (s.bus.read_write_at a _)

theorem State.readByte_writeWord_high (s : State) (a v : Word) :
    (s.writeWord a v).readByte (a + 1#16) =
      if s.bus.writeLands (a + 1#16) = true then highByte v else s.readByte (a + 1#16) := by
  have hother : (s.bus.write a (lowByte v)).read (a + 1#16) = s.readByte (a + 1#16) :=
    Bus.read_write_other _ (Word.succ_ne a).symm _
  have hat := (s.bus.write a (lowByte v)).read_write_at (a + 1#16) (highByte v)
  rwa [Bus.writeLands_write, hother] at hat

/-! ### The stack pointer -/

theorem pairIndex_spIndex : pairIndex spIndex = spIndex := by decide

theorem State.pair_pushWord (s : State) (v : Word) (i : RegIdx) :
    (s.pushWord v).pair i = if pairIndex i = spIndex then s.sp + 2#16 else s.pair i :=
  s.pair_setPair spIndex i (s.sp + 2#16)

theorem State.sp_pushByte (s : State) (v : Byte) : (s.pushByte v).sp = s.sp + 1#16 :=
  s.pair_setPair_same spIndex _

theorem State.sp_dropByte (s : State) : s.dropByte.sp = s.sp - 1#16 :=
  s.pair_setPair_same spIndex _

theorem State.sp_dropWord (s : State) : s.dropWord.sp = s.sp - 2#16 :=
  s.pair_setPair_same spIndex _

theorem State.sp_setPair_other (s : State) {i : RegIdx} (v : Word) (h : pairIndex i ≠ spIndex) :
    (s.setPair i v).sp = s.sp :=
  (s.pair_setPair i spIndex v).trans (if_neg fun hc => h (hc.symm.trans pairIndex_spIndex))

theorem State.sp_setReg_other (s : State) {i : RegIdx} (v : Byte) (h : pairIndex i ≠ spIndex) :
    (s.setReg i v).sp = s.sp :=
  s.pair_setReg_other i spIndex v fun hc => h (hc.trans pairIndex_spIndex)

/-! ### Stores -/

/-- Settles O36: the handler is one byte write. -/
theorem storeResult : Obligations.StoreResult := by
  intro p ops s hr u a
  have hbus : s.bus = u.bus := (s.bus_fetched ops).symm
  have hread : s.readByte a = u.readByte a := (s.readByte_fetched ops a).symm
  have hat : (storeHandler u).readByte a = if u.bus.writeLands a = true then u.reg u.src else u.readByte a :=
    u.readByte_writeByte_at a _
  rw [hbus, hread]
  refine ⟨storeHandler u, exec_of_runs (i := .store p ops) hr, fun hlands => ?lands, fun hdropped => ?dropped,
    .refl u [], sameMemoryBut_handlerOf_fetched (.store p ops) s ops⟩
  case lands => rw [hat, if_pos hlands]
  case dropped => rw [hat, hdropped, if_neg Bool.false_ne_true]

/-- Settles O37: the handler is one byte write at `sp`, and a move of `sp`. -/
theorem pushResult : Obligations.PushResult := by
  intro p ops s hr u
  have hbus : s.bus = u.bus := (s.bus_fetched ops).symm
  have hread : s.readByte u.sp = u.readByte u.sp := (s.readByte_fetched ops _).symm
  have hat : (pushHandler u).readByte u.sp =
      if u.bus.writeLands u.sp = true then u.reg u.src else u.readByte u.sp :=
    u.readByte_writeByte_at u.sp _
  rw [hbus, hread]
  refine ⟨pushHandler u, exec_of_runs (i := .push p ops) hr, u.sp_pushByte _, fun hlands => ?lands,
    fun hdropped => ?dropped, sameRegistersBut_handlerOf (i := .push p ops) rfl u,
    sameMemoryBut_handlerOf_fetched (.push p ops) s ops⟩
  case lands => rw [hat, if_pos hlands]
  case dropped => rw [hat, hdropped, if_neg Bool.false_ne_true]

/-! ### Call and return -/

/-- Settles O33: the handler is a word write at `sp`, a move of `sp`, and a pair write of a pair read after the move. -/
theorem callResult : Obligations.CallResult := by
  intro p ops s hr u v
  have hbus : s.bus = u.bus := (s.bus_fetched ops).symm
  have hread (a : Word) : s.readByte a = u.readByte a := (s.readByte_fetched ops a).symm
  have hlow : (callHandler u).readByte u.sp =
      if u.bus.writeLands u.sp = true then lowByte v else u.readByte u.sp :=
    u.readByte_writeWord_low u.sp v
  have hhigh : (callHandler u).readByte (u.sp + 1#16) =
      if u.bus.writeLands (u.sp + 1#16) = true then highByte v else u.readByte (u.sp + 1#16) :=
    u.readByte_writeWord_high u.sp v
  simp only [hbus, hread]
  refine ⟨callHandler u, exec_of_runs (i := .call p ops) hr, ?pair, fun hd => ?sp,
    sameRegistersBut_handlerOf (i := .call p ops) rfl u, fun hlands => ?lowLands, fun hlands => ?highLands,
    fun hdropped => ?lowDropped, fun hdropped => ?highDropped, sameMemoryBut_handlerOf_fetched (.call p ops) s ops⟩
  case pair => exact (State.pair_setPair_same _ u.dest _).trans (u.pair_pushWord v u.src)
  case sp => exact (State.sp_setPair_other _ _ hd).trans (u.pair_pushWord v spIndex)
  case lowLands => rw [hlow, if_pos hlands, toNat_lowByte]
  case highLands => rw [hhigh, if_pos hlands, toNat_highByte]
  case lowDropped => rw [hlow, hdropped, if_neg Bool.false_ne_true]
  case highDropped => rw [hhigh, hdropped, if_neg Bool.false_ne_true]

/-- Settles O34: the handler is a move of `sp` and a pair write of the word there. -/
theorem retResult : Obligations.RetResult := by
  intro p ops s hr u
  refine ⟨retHandler u, exec_of_runs (i := .ret p ops) hr, ?pair, fun hd => ?sp,
    sameRegistersBut_handlerOf (i := .ret p ops) rfl u, sameMemoryBut_handlerOf_nil (i := .ret p ops) rfl⟩
  case pair =>
    have hnext : u.sp - 2#16 + 1#16 = u.sp - 1#16 := by bv_omega
    have hword : (retHandler u).pair u.dest =
        wordOf (u.readByte (u.dropWord.sp + 1#16)) (u.readByte u.dropWord.sp) :=
      State.pair_setPair_same _ u.dest _
    rw [hword, toNat_wordOf, State.sp_dropWord, hnext, State.readByte_fetched, State.readByte_fetched]
  case sp => exact (State.sp_setPair_other _ _ hd).trans u.sp_dropWord

/-! ### Pop -/

/-- Settles O38: the handler is a move of `sp` and then a register write, which may replace a byte of the moved `sp`. -/
theorem popResult : Obligations.PopResult := by
  intro p ops s hr u
  refine ⟨popHandler u, exec_of_runs (i := .pop p ops) hr, ?dest, fun hd => ?sp, fun hd => ?high, fun hd => ?low,
    sameRegistersBut_handlerOf (i := .pop p ops) rfl u, sameMemoryBut_handlerOf_nil (i := .pop p ops) rfl⟩
  case dest =>
    have hdest : (popHandler u).reg u.dest = u.readByte u.dropByte.sp :=
      (State.reg_setReg _ _ _ _).trans (if_pos rfl)
    rw [hdest, State.sp_dropByte, State.readByte_fetched]
  case sp => exact (State.sp_setReg_other _ _ hd).trans u.sp_dropByte
  case high =>
    have hne : u.dest ≠ 3#4 := by rw [hd]; decide
    have hreg : (popHandler u).reg 3#4 = highByte (u.sp - 1#16) :=
      (State.reg_setReg _ _ _ _).trans ((if_neg hne).trans (u.reg_setPair_high spIndex _))
    rw [hreg, toNat_highByte]
  case low =>
    have hne : u.dest ≠ 2#4 := by rw [hd]; decide
    have hreg : (popHandler u).reg 2#4 = lowByte (u.sp - 1#16) :=
      (State.reg_setReg _ _ _ _).trans ((if_neg hne).trans (u.reg_setPair_low spIndex _))
    rw [hreg, toNat_lowByte]

end Sys2Proof.Machine
end

section
/-! PROOFS. Two instructions in a row: the round trips of the stack (spec/43_stack_memory.md R146, R58), a stored
opcode byte that is fetched next (R67, R240), and arithmetic on two bytes chained by CARRY (spec/45_arith.md R164). Each
is composed of the statements about one instruction. -/

namespace Sys2Proof.Machine

/-! ### The stack -/

/-- Settles O48: `pushResult`, then `popResult` from the state it leaves, in which COND is as before. -/
theorem pushPopRoundTrip : Obligations.PushPopRoundTrip := by
  intro p p' ops ops' s hr hr' hlands u
  have hsp : u.sp = s.sp := s.sp_fetched ops
  obtain ⟨t, ht, htsp, hpushed, -, hregs, -⟩ := pushResult p ops s hr
  have hcond : t.flag .cond = s.flag .cond :=
    (hregs.sameFlagsBut (by decide) [] .cond (by simp)).trans (s.flag_fetched ops .cond)
  have hruns : t.runs p' = true := by rwa [State.runs, hcond]
  obtain ⟨t', ht', hdest, hpopsp, -⟩ := popResult p' ops' t hruns
  have hback : s.sp + 1#16 - 1#16 = s.sp := BitVec.add_sub_cancel _ _
  rw [hsp] at htsp hpushed
  rw [State.sp_fetched, htsp, hback] at hdest hpopsp
  exact ⟨t, t', ht, ht', fun hd => ⟨hdest.trans (hpushed hlands), hpopsp hd⟩⟩

/-- What a call leaves whose two writes land and whose dest is not the `sp` pair: `sp` moved up by 2, and the bytes of
the saved pair at the old `sp`. -/
theorem exec_call_leaves {p : Bool} {ops : List Byte} {s t : State} (hr : s.runs p = true)
    (hlow : s.bus.writeLands s.sp = true) (hhigh : s.bus.writeLands (s.sp + 1#16) = true)
    (e : exec (.call p ops) s = .next t) (hd : pairIndex (s.fetched ops).dest ≠ spIndex) :
    t.sp = s.sp + 2#16 ∧
      (t.readByte s.sp).toNat = ((s.fetched ops).pair (s.fetched ops).dest).toNat % 256 ∧
      (t.readByte (s.sp + 1#16)).toNat = ((s.fetched ops).pair (s.fetched ops).dest).toNat / 256 := by
  obtain ⟨t', ht', -, hsp, -, hlowByte, hhighByte, -⟩ := callResult p ops s hr
  obtain rfl : t' = t := Host.Outcome.next.inj (ht'.symm.trans e)
  rw [State.sp_fetched] at hsp hlowByte hhighByte
  exact ⟨hsp hd, hlowByte hlow, hhighByte hhigh⟩

/-- Settles O49: the return reads the two bytes that the call left (`exec_call_leaves`), which make the saved pair
again. -/
theorem callRetRoundTrip : Obligations.CallRetRoundTrip := by
  intro p p' ops ops' s t w hr hlen hlow hhigh e hdest hr' hsp hreadLow hreadHigh u d
  obtain ⟨htsp, hlowByte, hhighByte⟩ := exec_call_leaves hr hlow hhigh e hdest
  obtain ⟨t', ht', hpair, hretsp, -⟩ := retResult p' ops' w hr'
  have hback : s.sp + 2#16 - 2#16 = s.sp := BitVec.add_sub_cancel _ _
  have hbackHigh : s.sp + 2#16 - 1#16 = s.sp + 1#16 := by bv_omega
  rw [State.sp_fetched, hsp, htsp, hback] at hretsp hpair
  rw [hbackHigh, hreadHigh, hreadLow, hhighByte, hlowByte, Nat.div_add_mod] at hpair
  have hsaved : t'.pair d = u.pair u.dest := BitVec.eq_of_toNat_eq hpair
  refine ⟨t', ht', hsaved, hretsp, fun hpc => ?jump⟩
  case jump =>
    obtain ⟨-, hfetchedPc, -⟩ := s.fetched_spec ops
    rw [Nat.min_eq_right hlen] at hfetchedPc
    exact hsaved.trans ((State.pair_congr _ (hpc.trans pairIndex_pcIndex.symm)).trans hfetchedPc)

/-- Settles O50: each pop takes one of the two bytes that the call left (`exec_call_leaves`), the high one first. -/
theorem callThenTwoPops : Obligations.CallThenTwoPops := by
  intro p ops ops1 ops2 s t hr hlow hhigh e hdest hd1 v
  obtain ⟨htsp, hlowByte, hhighByte⟩ := exec_call_leaves hr hlow hhigh e hdest
  obtain ⟨t1, ht1, hreg1, hsp1, -, -, -, -, -, hread1⟩ := popResult false ops1 t rfl
  obtain ⟨t2, ht2, hreg2, hsp2, -⟩ := popResult false ops2 t1 rfl
  have hfirst : s.sp + 2#16 - 1#16 = s.sp + 1#16 := by bv_omega
  have hsecond : s.sp + 1#16 - 1#16 = s.sp := BitVec.add_sub_cancel _ _
  rw [State.sp_fetched, htsp, hfirst] at hreg1 hsp1
  rw [State.sp_fetched, hsp1 hd1, hsecond] at hreg2 hsp2
  refine ⟨t1, t2, ht1, ht2, ?high, ?low, hsp2⟩
  case high => rw [hreg1, hhighByte]
  case low => rw [hreg2, hread1 _ List.not_mem_nil, hlowByte]

/-! ### A stored opcode -/

theorem State.selector_fetchInstr (s : State) : s.fetchInstr.selector = opcodeSelector (s.readByte s.pc) :=
  selector_decodeOpcode _ _

theorem State.predicated_fetchInstr (s : State) : s.fetchInstr.predicated = opcodePredicated (s.readByte s.pc) :=
  predicated_decodeOpcode _ _

/-- Settles O51: `store` leaves `pc`, and the byte there is the stored one (`storeResult`), which the next fetch takes
apart. -/
theorem storedOpcodeIsFetchedNext : Obligations.StoredOpcodeIsFetchedNext := by
  intro p ops s hr u haddress hlands
  obtain ⟨t, ht, hstored, -, hregs, -⟩ := storeResult p ops s hr
  have hpc : t.pc = u.pc := congrArg₂ wordOf (hregs _ List.not_mem_nil) (hregs _ List.not_mem_nil)
  have hop : t.readByte t.pc = u.reg u.src := by
    rw [hpc, ← haddress]
    exact hstored (haddress ▸ hlands)
  exact ⟨t, ht, hop ▸ t.selector_fetchInstr, hop ▸ t.predicated_fetchInstr, hop ▸ t.length_operands_fetchInstr⟩

/-! ### Chained arithmetic -/

/-- What an addition of bytes with carry makes of two operands and a carry-in. -/
def AddsBytes (dest src carryIn result carryOut : Nat) : Prop :=
  result + 256 * carryOut = dest + src + carryIn

/-- What a subtraction of bytes makes of two operands and a carry-in, a carry of 1 being no borrow. -/
def SubtractsBytes (dest src carryIn result carryOut : Nat) : Prop :=
  result + src + 1 + 256 * carryOut = dest + 256 + carryIn

/-- Unpredicated and with one operand byte, on registers 8 to 15, the instruction `mk` relates the old destination, the
source and CARRY to the new destination and CARRY by `P`, and leaves every other register from 8 on. -/
def ComputesBytes (mk : Bool → List Byte → Instr) (P : Nat → Nat → Nat → Nat → Nat → Prop) : Prop :=
  ∀ (s : State) (b : Byte), (b.extractLsb' 4 4).toNat ≥ 8 → (b.extractLsb' 0 4).toNat ≥ 8 →
    ∃ t, exec (mk false [b]) s = .next t ∧
      P (s.reg (b.extractLsb' 4 4)).toNat (s.reg (b.extractLsb' 0 4)).toNat (s.flag .carry).toNat
        (t.reg (b.extractLsb' 4 4)).toNat (t.flag .carry).toNat ∧
      ∀ r : RegIdx, r.toNat ≥ 8 → r ≠ b.extractLsb' 4 4 → t.reg r = s.reg r

theorem ne_flagIndex {r : RegIdx} (hr : r.toNat ≥ 8) : r ≠ flagIndex := by
  rintro rfl
  exact absurd hr (by decide)

/-- The fetch touches no register from 8 on. -/
theorem State.reg_fetched_general (s : State) (ops : List Byte) {r : RegIdx} (hr : r.toNat ≥ 8) :
    (s.fetched ops).reg r = s.reg r :=
  s.sameRegistersBut_fetched ops r fun hmem => by
    have hlt : ∀ i ∈ [pcIndex, 1#4, a0Index, a1Index, a2Index], i.toNat < 8 := by decide
    exact absurd (hlt r hmem) (Nat.not_lt.2 hr)

/-- An operand byte that is fetched is A0, which names both operands. -/
theorem State.a0_fetched_one (s : State) (b : Byte) : (s.fetched [b]).reg a0Index = b := by
  obtain ⟨-, -, ha0, -⟩ := s.fetched_spec [b]
  exact ha0

theorem State.dest_fetched_one (s : State) (b : Byte) : (s.fetched [b]).dest = b.extractLsb' 4 4 := by
  rw [State.dest, State.a0_fetched_one]

theorem State.src_fetched_one (s : State) (b : Byte) : (s.fetched [b]).src = b.extractLsb' 0 4 := by
  rw [State.src, State.a0_fetched_one]

/-- The result of a flag updater, with both its operands from register 8 on. -/
theorem WritesResult.general {s t : State} {b v : Byte} {fs : List Flag}
    (h : WritesResult s (s.fetched [b]) t (s.fetched [b]).dest v fs) (hd : (b.extractLsb' 4 4).toNat ≥ 8) :
    t.reg (b.extractLsb' 4 4) = v ∧
      ∀ r : RegIdx, r.toNat ≥ 8 → r ≠ b.extractLsb' 4 4 → t.reg r = s.reg r := by
  rw [State.dest_fetched_one] at h
  obtain ⟨hvalue, -, hregs, -⟩ := h
  refine ⟨(hvalue (ne_flagIndex hd)).left, fun r hr hne => ?other⟩
  case other => rw [hregs r (by simp [hne, ne_flagIndex hr]), s.reg_fetched_general _ hr]

/-- The two operands that an instruction with one operand byte reads, from register 8 on. -/
theorem State.operands_fetched_general (s : State) {b : Byte} (hd : (b.extractLsb' 4 4).toNat ≥ 8)
    (hs : (b.extractLsb' 0 4).toNat ≥ 8) :
    (s.fetched [b]).reg (s.fetched [b]).dest = s.reg (b.extractLsb' 4 4) ∧
      (s.fetched [b]).reg (s.fetched [b]).src = s.reg (b.extractLsb' 0 4) := by
  rw [State.dest_fetched_one, State.src_fetched_one, s.reg_fetched_general _ hd, s.reg_fetched_general _ hs]
  exact ⟨rfl, rfl⟩

/-- From what one instruction does to its operands as numbers (`value` and `carry`) to the relation between them. -/
theorem computesBytes_of_result {mk : Bool → List Byte → Instr} {P : Nat → Nat → Nat → Nat → Nat → Prop}
    {value : Nat → Nat → Nat → Nat} {carry : Nat → Nat → Nat → Bool}
    (hresult : ∀ (s : State) (b : Byte), ∃ t v, exec (mk false [b]) s = .next t ∧
      v.toNat = value ((s.fetched [b]).reg (s.fetched [b]).dest).toNat ((s.fetched [b]).reg (s.fetched [b]).src).toNat
        ((s.fetched [b]).flag .carry).toNat ∧
      t.flag .carry = carry ((s.fetched [b]).reg (s.fetched [b]).dest).toNat
        ((s.fetched [b]).reg (s.fetched [b]).src).toNat ((s.fetched [b]).flag .carry).toNat ∧
      WritesResult s (s.fetched [b]) t (s.fetched [b]).dest v [.neg, .zero, .carry])
    (hP : ∀ x y c, x < 256 → y < 256 → c ≤ 1 → P x y c (value x y c) (carry x y c).toNat) :
    ComputesBytes mk P := by
  intro s b hd hs
  obtain ⟨t, v, ht, hv, hcarry, hwrites⟩ := hresult s b
  obtain ⟨hdestOp, hsrcOp⟩ := s.operands_fetched_general hd hs
  obtain ⟨hdest, hother⟩ := hwrites.general hd
  refine ⟨t, ht, ?relation, hother⟩
  case relation =>
    rw [hdest, hv, hcarry, hdestOp, hsrcOp, State.flag_fetched]
    exact hP _ _ _ (BitVec.isLt _) (BitVec.isLt _) (Bool.toNat_le _)

theorem addsBytes_of_lt (x y c : Nat) (hx : x < 256) (hy : y < 256) (hc : c ≤ 1) :
    AddsBytes x y c ((x + y + c) % 256) (decide (x + y + c > 255)).toNat := by
  rw [AddsBytes]
  by_cases h : x + y + c > 255
  · rw [decide_eq_true h, Bool.toNat_true]; omega
  · rw [decide_eq_false h, Bool.toNat_false]; omega

theorem subtractsBytes_of_lt (x y c : Nat) (hx : x < 256) (hy : y < 256) (hc : c ≤ 1) :
    SubtractsBytes x y c ((x + 256 - y - (1 - c)) % 256) (decide (x ≥ y + (1 - c))).toNat := by
  rw [SubtractsBytes]
  by_cases h : x ≥ y + (1 - c)
  · rw [decide_eq_true h, Bool.toNat_true]; omega
  · rw [decide_eq_false h, Bool.toNat_false]; omega

theorem computesBytes_add : ComputesBytes .add AddsBytes := by
  refine computesBytes_of_result (fun s b => ?result) addsBytes_of_lt
  case result =>
    obtain ⟨t, v, ht, hv, -, -, hrest⟩ := addResult false [b] s rfl
    exact ⟨t, v, ht, hv, hrest⟩

theorem computesBytes_sub : ComputesBytes .sub SubtractsBytes := by
  refine computesBytes_of_result (fun s b => ?result) subtractsBytes_of_lt
  case result =>
    obtain ⟨⟨t, v, ht, hv, -, -, hrest⟩, -⟩ := subtractResults false [b] s rfl
    exact ⟨t, v, ht, hv, hrest⟩

/-- The reverse subtraction takes its operands the other way round. -/
theorem computesBytes_rsub : ComputesBytes .rsub fun dest src => SubtractsBytes src dest := by
  refine computesBytes_of_result (value := fun x y c => (y + 256 - x - (1 - c)) % 256)
    (carry := fun x y c => decide (y ≥ x + (1 - c))) (fun s b => ?result)
    fun x y c hx hy => subtractsBytes_of_lt y x c hy hx
  case result =>
    obtain ⟨-, t, v, ht, hv, -, -, hrest⟩ := subtractResults false [b] s rfl
    exact ⟨t, v, ht, hv, hrest⟩

/-- Two such instructions, low byte first: the second takes its operands as they were at the start, and CARRY from the
first; it leaves the first result. -/
theorem ComputesBytes.chained {mk : Bool → List Byte → Instr} {P : Nat → Nat → Nat → Nat → Nat → Prop}
    (h : ComputesBytes mk P) (s : State) {lo hi : Byte}
    (hregs : ∀ r ∈ [lo.extractLsb' 4 4, lo.extractLsb' 0 4, hi.extractLsb' 4 4, hi.extractLsb' 0 4], r.toNat ≥ 8)
    (hdest : lo.extractLsb' 4 4 ≠ hi.extractLsb' 4 4) (hsrc : lo.extractLsb' 4 4 ≠ hi.extractLsb' 0 4) :
    ∃ t t' c, exec (mk false [lo]) s = .next t ∧ exec (mk false [hi]) t = .next t' ∧
      P (s.reg (lo.extractLsb' 4 4)).toNat (s.reg (lo.extractLsb' 0 4)).toNat (s.flag .carry).toNat
        (t'.reg (lo.extractLsb' 4 4)).toNat c ∧
      P (s.reg (hi.extractLsb' 4 4)).toNat (s.reg (hi.extractLsb' 0 4)).toNat c
        (t'.reg (hi.extractLsb' 4 4)).toNat (t'.flag .carry).toNat := by
  obtain ⟨hd1, hs1, hd2, hs2⟩ : (lo.extractLsb' 4 4).toNat ≥ 8 ∧ (lo.extractLsb' 0 4).toNat ≥ 8 ∧
      (hi.extractLsb' 4 4).toNat ≥ 8 ∧ (hi.extractLsb' 0 4).toNat ≥ 8 := by simpa using hregs
  obtain ⟨t, ht, hlow, hother⟩ := h s lo hd1 hs1
  obtain ⟨t', ht', hhigh, hother'⟩ := h t hi hd2 hs2
  rw [hother _ hd2 hdest.symm, hother _ hs2 hsrc.symm] at hhigh
  rw [← hother' _ hd1 hdest] at hlow
  exact ⟨t, t', _, ht, ht', hlow, hhigh⟩

/-- 256 times the second byte sum and the first one together; the carry between them cancels. -/
theorem AddsBytes.chained {d1 s1 c0 r1 c d2 s2 r2 c' : Nat} (hlow : AddsBytes d1 s1 c0 r1 c)
    (hhigh : AddsBytes d2 s2 c r2 c') :
    65536 * c' + 256 * r2 + r1 = 256 * d2 + d1 + (256 * s2 + s1) + c0 := by
  rw [AddsBytes] at hlow hhigh
  omega

/-- As `AddsBytes.chained`, with the borrow between the two differences. -/
theorem SubtractsBytes.chained {d1 s1 c0 r1 c d2 s2 r2 c' : Nat} (hlow : SubtractsBytes d1 s1 c0 r1 c)
    (hhigh : SubtractsBytes d2 s2 c r2 c') :
    256 * r2 + r1 + (256 * s2 + s1) + 1 + 65536 * c' = 256 * d2 + d1 + 65536 + c0 := by
  rw [SubtractsBytes] at hlow hhigh
  omega

/-- Settles O52: the two byte sums of `computesBytes_add`, put together. -/
theorem chainedAddition : Obligations.ChainedAddition := by
  intro s lo hi d1 s1 d2 s2 hregs hdest hsrc
  obtain ⟨t, t', c, ht, ht', hlow, hhigh⟩ := computesBytes_add.chained s hregs hdest hsrc
  exact ⟨t, t', ht, ht', hlow.chained hhigh⟩

/-- Settles O53: as the addition, for each of the two subtractions. -/
theorem chainedSubtraction : Obligations.ChainedSubtraction := by
  intro s lo hi d1 s1 d2 s2 dest src hregs hdest hsrc
  refine ⟨?sub, ?rsub⟩
  case sub =>
    obtain ⟨t, t', c, ht, ht', hlow, hhigh⟩ := computesBytes_sub.chained s hregs hdest hsrc
    exact ⟨t, t', ht, ht', SubtractsBytes.chained hlow hhigh⟩
  case rsub =>
    obtain ⟨t, t', c, ht, ht', hlow, hhigh⟩ := computesBytes_rsub.chained s hregs hdest hsrc
    exact ⟨t, t', ht, ht', SubtractsBytes.chained hlow hhigh⟩

end Sys2Proof.Machine
end
